-- ==== Sys2Proof/Word.lean ====
section
/-! DEFINITION. The word types: 32-bit words, bytes and five-bit register numbers (spec/00_scope.md R7, R9). -/

namespace Sys2Proof

/-- Register values, addresses, extended immediates and instruction words (R9: "a 32-bit bit vector"). -/
abbrev Word := BitVec 32

/-- The content of one address (R40: each address "names one byte"). -/
abbrev Byte := BitVec 8

/-- A register number: a five-bit instruction field, so always in 0..31 (spec/10_state.md R22). -/
abbrev RegIdx := BitVec 5

end Sys2Proof
end

