-- ==== Sys2Proof/Config.lean ====
section
/-! DEFINITION. What the implementation fixes (spec/00_scope.md R7). The two parameters the spec leaves to a run,
`STACK_TOP` and the launch image, are arguments of `launch` (Machine/Launch.lean), not constants.
The spec leaves no other value open, so this file declares no free value. -/

namespace Sys2Proof.Config

/-- Addresses are 32 bits and name one byte each (R7, spec/20_memory.md R40). -/
def addressSpaceSize : Nat := 2 ^ 32

/-- Every instruction is 4 bytes (R7, spec/30_encoding.md R60). -/
def instrBytes : Nat := 4

end Sys2Proof.Config
end

