-- ==== Sys2Proof/Syntax.lean ====
section
/-! DEFINITION. The instructions: one constructor per row of spec/opcode_table.json, with the fields of its format
(spec/30_encoding.md R62 to R67). Immediates are the raw fields, put in bit order and not yet extended. -/

namespace Sys2Proof

/-- The 19 instructions (spec/00_scope.md R2). Bits that the hardware does not test but that a word holds are operands
here (`ignored`, `funct7`), so that an instruction and its word determine each other (log entry 8). -/
inductive Instr where
  | lb   (rd rs1 : RegIdx) (imm : BitVec 12)                      -- R111
  | lh   (rd rs1 : RegIdx) (imm : BitVec 12)                      -- R112
  | lw   (rd rs1 : RegIdx) (imm : BitVec 12)                      -- R113
  | lbu  (rd rs1 : RegIdx) (imm : BitVec 12)                      -- R114
  | lhu  (rd rs1 : RegIdx) (imm : BitVec 12)                      -- R115
  | sb   (rs1 rs2 : RegIdx) (imm : BitVec 12)                     -- R121
  | sh   (rs1 rs2 : RegIdx) (imm : BitVec 12)                     -- R122
  | sw   (rs1 rs2 : RegIdx) (imm : BitVec 12)                     -- R123
  | addi (rd rs1 : RegIdx) (imm : BitVec 12)                      -- R130
  | slli (rd rs1 : RegIdx) (shamt : BitVec 5) (ignored : BitVec 7) -- R131; w[31:25] is not tested (R80)
  | add  (rd rs1 rs2 : RegIdx)                                    -- R140
  | sub  (rd rs1 rs2 : RegIdx) (funct7 : BitVec 7)                -- R141; any nonzero funct7 (R79)
  | sll  (rd rs1 rs2 : RegIdx) (funct7 : BitVec 7)                -- R142; funct7 is not tested (R80)
  | jal  (rd : RegIdx) (imm : BitVec 21)                          -- R150
  | beq  (rs1 rs2 : RegIdx) (imm : BitVec 13)                     -- R161
  | bne  (rs1 rs2 : RegIdx) (imm : BitVec 13)                     -- R162
  | blt  (rs1 rs2 : RegIdx) (imm : BitVec 13)                     -- R163
  | bge  (rs1 rs2 : RegIdx) (imm : BitVec 13)                     -- R164
  | lui  (rd : RegIdx) (imm : BitVec 20)                          -- R170
  deriving DecidableEq, Repr

end Sys2Proof
end

