-- ==== Sys2Proof/WellFormed.lean ====
section
/-! DEFINITION. Which instructions some word encodes: the checks on operands that their types do not make. -/

namespace Sys2Proof

/-- A jump or branch offset has bit 0 clear: "bit 0 is implicitly zero" (spec/30_encoding.md R71, R73). -/
def evenOffset {n : Nat} (imm : BitVec n) : Bool := !imm.getLsbD 0

/-- The check behind `WellFormed`. SUB's funct7 is nonzero (spec/30_encoding.md R79: zero selects ADD), and the offsets
of JAL and of the branches are even (R71, R73). Every operand of the other instructions is admitted. -/
def wellFormed (i : Instr) : Bool :=
  match i with
  | .lb _ _ _ => true
  | .lh _ _ _ => true
  | .lw _ _ _ => true
  | .lbu _ _ _ => true
  | .lhu _ _ _ => true
  | .sb _ _ _ => true
  | .sh _ _ _ => true
  | .sw _ _ _ => true
  | .addi _ _ _ => true
  | .slli _ _ _ _ => true
  | .add _ _ _ => true
  | .sub _ _ _ funct7 => funct7 != 0
  | .sll _ _ _ _ => true
  | .jal _ imm => evenOffset imm
  | .beq _ _ imm => evenOffset imm
  | .bne _ _ imm => evenOffset imm
  | .blt _ _ imm => evenOffset imm
  | .bge _ _ imm => evenOffset imm
  | .lui _ _ => true

/-- The well-formed instructions: those that some word decodes to. -/
abbrev WellFormed (i : Instr) : Prop := wellFormed i = true

end Sys2Proof
end

