-- ==== Sys2Proof/Decode.lean ====
section
/-! DEFINITION. The decoder, total on any word and on any bytes, and the encoder beside it (spec/30_encoding.md), with
the bit-field, extension and byte-order helpers they use. Decoding is pure: it reads no register and no memory and
keeps nothing between words (R68). -/

namespace Sys2Proof

/-! ### Extension (spec/00_scope.md R10) -/

/-- `sext_N(v)`: the low `n` bits of `v`, with bit `n-1` copied into the bits above (R10). -/
def sext (n : Nat) (v : Word) : Word := (v.setWidth n).signExtend 32

/-- `zext_N(v)`: the low `n` bits of `v`, with the bits above cleared (R10). -/
def zext (n : Nat) (v : Word) : Word := (v.setWidth n).setWidth 32

/-- A field put at bit `k` of `w` zero bits: `v << k` (R11). -/
def place (w : Nat) {n : Nat} (v : BitVec n) (k : Nat) : BitVec w := v.setWidth w <<< k

/-! ### The fields of a word (R61 to R67) -/

/-- `w[6:0]`, in every format (R61). -/
def opcode (w : Word) : BitVec 7 := w.extractLsb' 0 7

/-- `w[11:7]` (R62, R63, R66, R67). -/
def rdField (w : Word) : RegIdx := w.extractLsb' 7 5

/-- `w[14:12]` (R62 to R65). -/
def funct3 (w : Word) : BitVec 3 := w.extractLsb' 12 3

/-- `w[19:15]` (R62 to R65). -/
def rs1Field (w : Word) : RegIdx := w.extractLsb' 15 5

/-- `w[24:20]` (R62, R64, R65). -/
def rs2Field (w : Word) : RegIdx := w.extractLsb' 20 5

/-- `w[31:25]` (R62). -/
def funct7 (w : Word) : BitVec 7 := w.extractLsb' 25 7

/-- The shift amount of SLLI, `w[24:20]` (R74; log entry 14). -/
def shamtField (w : Word) : BitVec 5 := w.extractLsb' 20 5

/-- I format: `imm[11:0]` is `w[31:20]` (R63). -/
def immIField (w : Word) : BitVec 12 := w.extractLsb' 20 12

/-- S format: `imm[4:0]` is `w[11:7]` and `imm[11:5]` is `w[31:25]` (R64). -/
def immSField (w : Word) : BitVec 12 := place 12 (w.extractLsb' 7 5) 0 ||| place 12 (w.extractLsb' 25 7) 5

/-- B format: `imm[4:1]`, `imm[10:5]`, `imm[11]` and `imm[12]` are `w[11:8]`, `w[30:25]`, `w[7]` and `w[31]`, and
bit 0 is zero (R65, R71). -/
def immBField (w : Word) : BitVec 13 :=
  place 13 (w.extractLsb' 8 4) 1 ||| place 13 (w.extractLsb' 25 6) 5 ||| place 13 (w.extractLsb' 7 1) 11 |||
    place 13 (w.extractLsb' 31 1) 12

/-- U format: `imm[31:12]` is `w[31:12]` (R66). -/
def immUField (w : Word) : BitVec 20 := w.extractLsb' 12 20

/-- J format: `imm[10:1]`, `imm[11]`, `imm[19:12]` and `imm[20]` are `w[30:21]`, `w[20]`, `w[19:12]` and `w[31]`, and
bit 0 is zero (R67, R73). -/
def immJField (w : Word) : BitVec 21 :=
  place 21 (w.extractLsb' 21 10) 1 ||| place 21 (w.extractLsb' 20 1) 11 ||| place 21 (w.extractLsb' 12 8) 12 |||
    place 21 (w.extractLsb' 31 1) 20

/-! ### Immediates as 32-bit values -/

/-- A 12-bit immediate, sign-extended (R69, R70). -/
def extendImm12 (imm : BitVec 12) : Word := imm.signExtend 32

/-- A branch offset, sign-extended from 13 bits (R71). -/
def extendImm13 (imm : BitVec 13) : Word := imm.signExtend 32

/-- A jump offset, sign-extended from 21 bits (R73). -/
def extendImm21 (imm : BitVec 21) : Word := imm.signExtend 32

/-- The U immediate: the 20-bit payload in the upper bits, the low 12 bits zero, no sign extension (R72). -/
def upperImm (imm : BitVec 20) : Word := place 32 imm 12

/-- `immI(w)` (R69). -/
def immI (w : Word) : Word := extendImm12 (immIField w)

/-- `immS(w)` (R70). -/
def immS (w : Word) : Word := extendImm12 (immSField w)

/-- `immB(w)` (R71). -/
def immB (w : Word) : Word := extendImm13 (immBField w)

/-- `immU(w)` (R72). -/
def immU (w : Word) : Word := upperImm (immUField w)

/-- `immJ(w)` (R73). -/
def immJ (w : Word) : Word := extendImm21 (immJField w)

/-! ### The opcode map (R75, R76) -/

/-- The opcode classes, one handler each (R75, R76). -/
inductive OpClass where
  | load | store | arithImm | arithReg | jal | branch | lui
  deriving DecidableEq, Repr

/-- The instruction formats (R62 to R67). The source's seventh tag, "base", is the opcode-only view (R68). -/
inductive Format where
  | r | i | s | b | u | j
  deriving DecidableEq, Repr

/-- Each opcode class has one format (R75). -/
def OpClass.format : OpClass → Format
  | .load => .i
  | .store => .s
  | .arithImm => .i
  | .arithReg => .r
  | .jal => .j
  | .branch => .b
  | .lui => .u

/-- The dispatch table: exactly seven opcodes (R76; spec/10_state.md R32). JALR's opcode has no entry (D8). -/
def dispatchTable : List (BitVec 7 × OpClass) :=
  [(0b0000011, .load), (0b0100011, .store), (0b0010011, .arithImm), (0b0110011, .arithReg),
   (0b1101111, .jal), (0b1100011, .branch), (0b0110111, .lui)]

/-- The class of an opcode, if the dispatch table has it. -/
def opClass? (op : BitVec 7) : Option OpClass := dispatchTable.lookup op

/-! ### The decoder (R77 to R81) -/

/-- Why a word is Illegal (R81; spec/60_exceptions.md R184). -/
inductive Illegal where
  /-- The opcode is not in the dispatch table (R76). -/
  | opcodeNotHandled (op : BitVec 7)
  /-- The opcode is handled, but its funct3 is not one of its cases (R78). -/
  | funct3NotHandled (c : OpClass) (f3 : BitVec 3)
  deriving DecidableEq, Repr

/-- Loads (R78; spec/41_load.md). -/
def decodeLoad (w : Word) : Except Illegal Instr :=
  if funct3 w = 0b000 then .ok (.lb (rdField w) (rs1Field w) (immIField w))
  else if funct3 w = 0b001 then .ok (.lh (rdField w) (rs1Field w) (immIField w))
  else if funct3 w = 0b010 then .ok (.lw (rdField w) (rs1Field w) (immIField w))
  else if funct3 w = 0b100 then .ok (.lbu (rdField w) (rs1Field w) (immIField w))
  else if funct3 w = 0b101 then .ok (.lhu (rdField w) (rs1Field w) (immIField w))
  else .error (.funct3NotHandled .load (funct3 w))

/-- Stores (R78; spec/42_store.md). -/
def decodeStore (w : Word) : Except Illegal Instr :=
  if funct3 w = 0b000 then .ok (.sb (rs1Field w) (rs2Field w) (immSField w))
  else if funct3 w = 0b001 then .ok (.sh (rs1Field w) (rs2Field w) (immSField w))
  else if funct3 w = 0b010 then .ok (.sw (rs1Field w) (rs2Field w) (immSField w))
  else .error (.funct3NotHandled .store (funct3 w))

/-- Arithmetic with immediate (R78; spec/43_arith_imm.md). SLLI does not test `w[31:25]` (R80). -/
def decodeArithImm (w : Word) : Except Illegal Instr :=
  if funct3 w = 0b000 then .ok (.addi (rdField w) (rs1Field w) (immIField w))
  else if funct3 w = 0b001 then .ok (.slli (rdField w) (rs1Field w) (shamtField w) (funct7 w))
  else .error (.funct3NotHandled .arithImm (funct3 w))

/-- Arithmetic on registers (R78; spec/44_arith_reg.md). funct7 zero is ADD and any other is SUB (R79).
SLL does not test funct7 (R80). -/
def decodeArithReg (w : Word) : Except Illegal Instr :=
  if funct3 w = 0b000 then
    if funct7 w = 0 then .ok (.add (rdField w) (rs1Field w) (rs2Field w))
    else .ok (.sub (rdField w) (rs1Field w) (rs2Field w) (funct7 w))
  else if funct3 w = 0b001 then .ok (.sll (rdField w) (rs1Field w) (rs2Field w) (funct7 w))
  else .error (.funct3NotHandled .arithReg (funct3 w))

/-- Branches (R78; spec/46_branch.md). -/
def decodeBranch (w : Word) : Except Illegal Instr :=
  if funct3 w = 0b000 then .ok (.beq (rs1Field w) (rs2Field w) (immBField w))
  else if funct3 w = 0b001 then .ok (.bne (rs1Field w) (rs2Field w) (immBField w))
  else if funct3 w = 0b100 then .ok (.blt (rs1Field w) (rs2Field w) (immBField w))
  else if funct3 w = 0b101 then .ok (.bge (rs1Field w) (rs2Field w) (immBField w))
  else .error (.funct3NotHandled .branch (funct3 w))

/-- A word of a given class (R78): JAL and LUI have no funct3. -/
def decodeClass (c : OpClass) (w : Word) : Except Illegal Instr :=
  match c with
  | .load => decodeLoad w
  | .store => decodeStore w
  | .arithImm => decodeArithImm w
  | .arithReg => decodeArithReg w
  | .jal => .ok (.jal (rdField w) (immJField w))
  | .branch => decodeBranch w
  | .lui => .ok (.lui (rdField w) (immUField w))

/-- `decode(w)`: one of the 19 instructions with its fields, or Illegal (R77). It tests the opcode first, then funct3,
then, for arithmetic-register funct3 000 only, funct7. -/
def decode (w : Word) : Except Illegal Instr :=
  match opClass? (opcode w) with
  | none => .error (.opcodeNotHandled (opcode w))
  | some c => decodeClass c w

/-! ### Bytes (spec/20_memory.md R47, R48) -/

/-- The low `n` bytes of `w`, the least significant first (R47). -/
def bytesLE : Nat → Word → List Byte
  | 0, _ => []
  | n + 1, w => w.setWidth 8 :: bytesLE n (w >>> 8)

/-- Four bytes as a word, the first one least significant (R48). -/
def wordLE (b0 b1 b2 b3 : Byte) : Word := place 32 b0 0 ||| place 32 b1 8 ||| place 32 b2 16 ||| place 32 b3 24

/-- Why bytes do not decode. -/
inductive DecodeError where
  /-- Fewer than four bytes: an instruction is always four (R60). -/
  | tooFewBytes
  /-- The word is Illegal (R81). -/
  | illegal (e : Illegal)
  deriving DecidableEq, Repr

/-- The instruction in the first four bytes, and the bytes after it (R48, R60). -/
def decodeBytes : List Byte → Except DecodeError (Instr × List Byte)
  | b0 :: b1 :: b2 :: b3 :: rest =>
    match decode (wordLE b0 b1 b2 b3) with
    | .ok i => .ok (i, rest)
    | .error e => .error (.illegal e)
  | _ => .error .tooFewBytes

/-- The 32-bit word of a table row: `w`'s low `nbits` bits, and zeros above. -/
def tableWord (nbits w : Nat) : Word := BitVec.ofNat 32 (w % 2 ^ nbits)

/-- The instruction the decoder reads from an opcode-table word, laid out in memory order. -/
def decodeTableWord (nbits w : Nat) : Option Instr :=
  match decodeBytes (bytesLE Config.instrBytes (tableWord nbits w)) with
  | .ok (i, _) => some i
  | .error _ => none

/-! ### The encoder -/

/-- R format (R62). -/
def encodeR (f7 : BitVec 7) (rs2 rs1 : RegIdx) (f3 : BitVec 3) (rd : RegIdx) (op : BitVec 7) : Word :=
  place 32 f7 25 ||| place 32 rs2 20 ||| place 32 rs1 15 ||| place 32 f3 12 ||| place 32 rd 7 ||| place 32 op 0

/-- I format (R63). -/
def encodeI (imm : BitVec 12) (rs1 : RegIdx) (f3 : BitVec 3) (rd : RegIdx) (op : BitVec 7) : Word :=
  place 32 imm 20 ||| place 32 rs1 15 ||| place 32 f3 12 ||| place 32 rd 7 ||| place 32 op 0

/-- S format (R64). -/
def encodeS (imm : BitVec 12) (rs2 rs1 : RegIdx) (f3 : BitVec 3) (op : BitVec 7) : Word :=
  place 32 (imm.extractLsb' 5 7) 25 ||| place 32 rs2 20 ||| place 32 rs1 15 ||| place 32 f3 12 |||
    place 32 (imm.extractLsb' 0 5) 7 ||| place 32 op 0

/-- B format (R65). -/
def encodeB (imm : BitVec 13) (rs2 rs1 : RegIdx) (f3 : BitVec 3) (op : BitVec 7) : Word :=
  place 32 (imm.extractLsb' 12 1) 31 ||| place 32 (imm.extractLsb' 5 6) 25 ||| place 32 rs2 20 ||| place 32 rs1 15 |||
    place 32 f3 12 ||| place 32 (imm.extractLsb' 1 4) 8 ||| place 32 (imm.extractLsb' 11 1) 7 ||| place 32 op 0

/-- U format (R66). -/
def encodeU (imm : BitVec 20) (rd : RegIdx) (op : BitVec 7) : Word :=
  place 32 imm 12 ||| place 32 rd 7 ||| place 32 op 0

/-- J format (R67). -/
def encodeJ (imm : BitVec 21) (rd : RegIdx) (op : BitVec 7) : Word :=
  place 32 (imm.extractLsb' 20 1) 31 ||| place 32 (imm.extractLsb' 1 10) 21 ||| place 32 (imm.extractLsb' 11 1) 20 |||
    place 32 (imm.extractLsb' 12 8) 12 ||| place 32 rd 7 ||| place 32 op 0

/-- The word of a well-formed instruction, from R62 to R67 and the opcode map (R75, R78, R79). -/
def encode (i : Instr) : Word :=
  match i with
  | .lb rd rs1 imm => encodeI imm rs1 0b000 rd 0b0000011
  | .lh rd rs1 imm => encodeI imm rs1 0b001 rd 0b0000011
  | .lw rd rs1 imm => encodeI imm rs1 0b010 rd 0b0000011
  | .lbu rd rs1 imm => encodeI imm rs1 0b100 rd 0b0000011
  | .lhu rd rs1 imm => encodeI imm rs1 0b101 rd 0b0000011
  | .sb rs1 rs2 imm => encodeS imm rs2 rs1 0b000 0b0100011
  | .sh rs1 rs2 imm => encodeS imm rs2 rs1 0b001 0b0100011
  | .sw rs1 rs2 imm => encodeS imm rs2 rs1 0b010 0b0100011
  | .addi rd rs1 imm => encodeI imm rs1 0b000 rd 0b0010011
  | .slli rd rs1 shamt ignored => encodeR ignored shamt rs1 0b001 rd 0b0010011
  | .add rd rs1 rs2 => encodeR 0 rs2 rs1 0b000 rd 0b0110011
  | .sub rd rs1 rs2 f7 => encodeR f7 rs2 rs1 0b000 rd 0b0110011
  | .sll rd rs1 rs2 f7 => encodeR f7 rs2 rs1 0b001 rd 0b0110011
  | .jal rd imm => encodeJ imm rd 0b1101111
  | .beq rs1 rs2 imm => encodeB imm rs2 rs1 0b000 0b1100011
  | .bne rs1 rs2 imm => encodeB imm rs2 rs1 0b001 0b1100011
  | .blt rs1 rs2 imm => encodeB imm rs2 rs1 0b100 0b1100011
  | .bge rs1 rs2 imm => encodeB imm rs2 rs1 0b101 0b1100011
  | .lui rd imm => encodeU imm rd 0b0110111

end Sys2Proof
end

