-- ==== Sys2Proof/Machine/State.lean ====
section
/-! DEFINITION. The machine's state, plain data (spec/10_state.md), the reasons a step can stop, and the state at reset. -/

namespace Sys2Proof.Machine

/-- The engine status (R29). -/
inductive Status where
  /-- The engine may take a step. -/
  | running
  /-- A self-targeting instruction completed (spec/40_dispatch.md R99). -/
  | halted
  /-- A step raised a fault (spec/60_exceptions.md R181). -/
  | faulted
  deriving DecidableEq, Repr

/-- The seven fault kinds (spec/60_exceptions.md R182). A fault of this hardware is a change of state, not the host's
outcome of that name: the step that raises one is a next step to a Faulted state (R192; log entry 1). -/
inductive FaultKind where
  | fetchMisaligned
  | fetchAccessFault
  | illegalInstruction
  | loadMisaligned
  | loadAccessFault
  | storeMisaligned
  | storeAccessFault
  deriving DecidableEq, Repr

/-- The fault record (R30). -/
structure FaultRecord where
  /-- What was raised. -/
  kind : FaultKind
  /-- The address of the faulting instruction (spec/60_exceptions.md R183). -/
  pc : Word
  /-- The instruction word, or none if the fetch itself faulted. -/
  word : Option Word
  /-- The faulting data or fetch address, for memory faults. -/
  addr : Option Word
  /-- The instructions completed before the fault (R183). -/
  icount : Nat
  deriving DecidableEq, Repr

/-- A segment covers the addresses `base .. base + size - 1` (spec/20_memory.md R41). -/
structure Segment where
  base : Nat
  size : Nat
  deriving DecidableEq, Repr

/-- The bytes of memory, as address and byte pairs in the canonical form of `Memory.wf` (Machine/Ops.lean). -/
abbrev Memory := List Host.Cell

/-- Everything the spec gives the machine (spec/10_state.md section 1). `pc_start` is a latch inside one step (R33) and
is the `pc` of the state the step starts from. -/
structure State where
  /-- `x[0]` to `x[31]` (R20). The cell of `x[0]` is never read: see `readReg` (R21). -/
  regs : Vector Word 32
  /-- The address of the instruction being executed (R24). -/
  pc : Word
  /-- The mapped set: written by the launch and by nothing else (spec/20_memory.md R41; log entry 12). -/
  segs : List Segment
  /-- The bytes of the mapped addresses (spec/20_memory.md R44). -/
  mem : Memory
  /-- Running, Halted or Faulted (R29). -/
  status : Status
  /-- None, or the record of the fault that ended the run (R30). -/
  fault : Option FaultRecord
  /-- Completed instructions, with no wrap-around (R31). -/
  icount : Nat
  deriving DecidableEq, Repr

/-- Why no step is taken. -/
inductive Fault where
  /-- Raised by `step` when status is Halted: "no step is defined" (spec/40_dispatch.md R101). Safe: the model stops
  where the hardware stops. -/
  | engineHalted
  /-- Raised by `step` when status is Faulted (spec/40_dispatch.md R101). Safe: the model stops where the hardware stops. -/
  | engineFaulted
  deriving DecidableEq, Repr

/-- Why an instruction has no meaning in this model. -/
inductive Refusal where
  /-- Raised by an arm of `exec` whose instruction has no meaning yet. Safe: the model stops. No arm raises it: all 19
  instructions have their meaning. -/
  | notModelled (mnemonic : String)
  deriving DecidableEq, Repr

/-- The state at creation (spec/70_reset_and_hazards.md R210): every register and `pc` zero, status Running, no fault,
`icount` zero, and no image launched, so nothing is mapped (log entry 2). -/
def State.reset : State where
  regs := Vector.replicate 32 0
  pc := 0
  segs := []
  mem := []
  status := .running
  fault := none
  icount := 0

end Sys2Proof.Machine
end

