-- ==== Sys2Proof/Machine/Ops.lean ====
section
/-! DEFINITION. The operations every meaning is written over: registers, bytes of memory, segments, the memory port,
completing an instruction and raising a fault. -/

namespace Sys2Proof.Machine

/-! ### Registers (spec/10_state.md R20 to R22) -/

/-- `x[i]`: `x[0]` reads as zero (R21). -/
def State.readReg (s : State) (i : RegIdx) : Word :=
  if i = 0 then 0 else s.regs[i.toNat]'i.isLt

/-- `x[i] <- v`: a write to `x[0]` is discarded (R21). -/
def State.writeReg (s : State) (i : RegIdx) (v : Word) : State :=
  if i = 0 then s else { s with regs := s.regs.set i.toNat v i.isLt }

/-! ### Bytes (spec/20_memory.md R44, spec/70_reset_and_hazards.md R213) -/

/-- What an address with no entry reads as, where it is mapped: the zero fill of the launch (R213; log entry 3). An
unmapped address holds no byte at all (spec/20_memory.md R42): see `State.byteAt`. -/
def Memory.unlisted : Byte := 0

/-- The canonical form: addresses strictly rising, all within the address space, and no entry that says what an address
with no entry reads as anyway. -/
def Memory.wf : Memory → Bool
  | [] => true
  | (k, v) :: rest =>
    v != Memory.unlisted && decide (k < Config.addressSpaceSize) && rest.all (fun c => decide (k < c.1)) && Memory.wf rest

/-- The byte listed at `a`, or what an address with no entry reads as. -/
def Memory.read : Memory → Nat → Byte
  | [], _ => Memory.unlisted
  | (k, v) :: rest, a => if a = k then v else Memory.read rest a

/-- An entry in front of `rest`, unless it would say what an address with no entry reads as. -/
def Memory.put (a : Nat) (b : Byte) (rest : Memory) : Memory :=
  if b = Memory.unlisted then rest else (a, b) :: rest

/-- `byte(a) <- b`, keeping the canonical form. -/
def Memory.write : Memory → Nat → Byte → Memory
  | [], a, b => Memory.put a b []
  | (k, v) :: rest, a, b =>
    if a < k then Memory.put a b ((k, v) :: rest)
    else if a = k then Memory.put a b rest
    else (k, v) :: Memory.write rest a b

/-- The bytes of a list, written upwards from `a`. -/
def Memory.writeBytes (m : Memory) (a : Nat) : List Byte → Memory
  | [] => m
  | b :: bs => Memory.writeBytes (m.write a b) (a + 1) bs

/-- `n` bytes from `a` upwards as a number, the lowest address least significant (spec/20_memory.md R45, R47). -/
def Memory.readLE (m : Memory) (a : Nat) : Nat → Word
  | 0 => 0
  | n + 1 => (m.read a).setWidth 32 ||| (Memory.readLE m (a + 1) n <<< 8)

/-- The low `n` bytes of `v`, written from `a` upwards, the least significant first (spec/20_memory.md R46, R47). -/
def Memory.writeLE (m : Memory) (a : Nat) (n : Nat) (v : Word) : Memory :=
  m.writeBytes a (bytesLE n v)

/-! ### Segments (spec/20_memory.md R41 to R44) -/

/-- The address lies in the segment (R41). -/
def Segment.covers (k : Segment) (a : Nat) : Bool := decide (k.base ≤ a) && decide (a < k.base + k.size)

/-- Some address lies in both (R43). An empty segment covers nothing (log entry 7). -/
def Segment.overlaps (k l : Segment) : Bool :=
  decide (max k.base l.base < min (k.base + k.size) (l.base + l.size))

/-- The segments lie within the address space and do not overlap (R43; spec/70_reset_and_hazards.md R215). -/
def segsWf : List Segment → Bool
  | [] => true
  | k :: rest => decide (k.base + k.size ≤ Config.addressSpaceSize) && rest.all (fun l => !k.overlaps l) && segsWf rest

/-- `owner(a)`: the segment that covers `a`, or none (R44). -/
def State.owner (s : State) (a : Nat) : Option Segment := s.segs.find? (fun k => k.covers a)

/-- `byte(a)`: the content of a mapped address. An unmapped one "holds no byte" (R42, R44). -/
def State.byteAt (s : State) (a : Nat) : Option Byte :=
  match s.owner a with
  | some _ => some (s.mem.read a)
  | none => none

/-! ### The memory port (spec/20_memory.md R45, R46, R48) -/

/-- The access widths (spec/00_scope.md R7, spec/20_memory.md R51). -/
inductive Width where
  | byte | half | word
  deriving DecidableEq, Repr

/-- How many bytes an access moves (R51). -/
def Width.bytes : Width → Nat
  | .byte => 1
  | .half => 2
  | .word => 4

/-- What the port can find wrong with an access. -/
inductive AccessProblem where
  | misaligned
  | outside
  deriving DecidableEq, Repr

/-- The checks every access makes, the alignment first (R45, R46, R48, R50; spec/60_exceptions.md R191): the address is
a multiple of the width, some segment owns it, and the access does not run past that segment's end. -/
def State.accessProblem (s : State) (a : Word) (n : Width) : Option AccessProblem :=
  if a.toNat % n.bytes ≠ 0 then some .misaligned
  else
    match s.owner a.toNat with
    | none => some .outside
    | some k => if a.toNat + n.bytes > k.base + k.size then some .outside else none

/-- The fault a load raises (R45). -/
def AccessProblem.loadFault : AccessProblem → FaultKind
  | .misaligned => .loadMisaligned
  | .outside => .loadAccessFault

/-- The fault a store raises (R46). -/
def AccessProblem.storeFault : AccessProblem → FaultKind
  | .misaligned => .storeMisaligned
  | .outside => .storeAccessFault

/-- The fault a fetch raises (R48). -/
def AccessProblem.fetchFault : AccessProblem → FaultKind
  | .misaligned => .fetchMisaligned
  | .outside => .fetchAccessFault

/-- `MemRead(a, n)` (R45). -/
def State.memRead (s : State) (a : Word) (n : Width) : Except FaultKind Word :=
  match s.accessProblem a n with
  | some p => .error p.loadFault
  | none => .ok (s.mem.readLE a.toNat n.bytes)

/-- `MemWrite(a, n, v)`: every check comes before the first byte is written (R46). -/
def State.memWrite (s : State) (a : Word) (n : Width) (v : Word) : Except FaultKind State :=
  match s.accessProblem a n with
  | some p => .error p.storeFault
  | none => .ok { s with mem := s.mem.writeLE a.toNat n.bytes v }

/-- `Fetch(pc)` (R48; log entry 13). It asks for no permission, and nor does the port (R54; log entry 17). -/
def State.fetch (s : State) : Except FaultKind Word :=
  match s.accessProblem s.pc .word with
  | some p => .error p.fetchFault
  | none => .ok (s.mem.readLE s.pc.toNat Config.instrBytes)

/-! ### Ending an instruction (spec/40_dispatch.md R91, R97 to R99; spec/60_exceptions.md R192) -/

/-- The next sequential address, modulo 2^32 (spec/10_state.md R25). -/
def State.seqPc (s : State) : Word := s.pc + 4

/-- A handler returned `nextPc`: the loop installs it, counts the instruction, and halts the run if it is the address
the instruction was fetched from (R97, R98, R99). `s.pc` is `pc_start`, since no handler writes `pc`. -/
def State.complete (s : State) (nextPc : Word) : State :=
  { s with
    pc := nextPc
    icount := s.icount + 1
    status := if nextPc = s.pc then .halted else s.status }

/-- The cause codes (spec/60_exceptions.md R182). The hardware reads none of them. -/
def FaultKind.code : FaultKind → Nat
  | .fetchMisaligned => 0
  | .fetchAccessFault => 1
  | .illegalInstruction => 2
  | .loadMisaligned => 4
  | .loadAccessFault => 5
  | .storeMisaligned => 6
  | .storeAccessFault => 7

/-- `raise`: the one way a fault is taken. `status` becomes Faulted, the record is filled, and nothing else changes
(spec/60_exceptions.md R182, R183, R192). No handler runs and there is no return: a fault ends the run (R193, R194). -/
def State.raise (s : State) (kind : FaultKind) (word addr : Option Word) : State :=
  { s with
    status := .faulted
    fault := some { kind := kind, pc := s.pc, word := word, addr := addr, icount := s.icount } }

/-! ### The handlers' common ends -/

/-- Write one register and go on to the next instruction. -/
def retire (rd : RegIdx) (v : Word) (s : State) : Host.Outcome State Fault Refusal :=
  .next ((s.writeReg rd v).complete s.seqPc)

/-- Go to `nextPc` and write nothing. -/
def retireTo (nextPc : Word) (s : State) : Host.Outcome State Fault Refusal :=
  .next (s.complete nextPc)

/-- A load of `n` bytes at `ea` (spec/41_load.md R110): the read is made and can fault even when `rd` is `x0`. `w` is the
instruction's word, for the fault record. -/
def loadInto (w : Word) (n : Width) (extend : Word → Word) (rd : RegIdx) (ea : Word) (s : State) :
    Host.Outcome State Fault Refusal :=
  match s.memRead ea n with
  | .error k => .next (s.raise k (some w) (some ea))
  | .ok v => retire rd (extend v) s

/-- A store of the low `n` bytes of `v` at `ea` (spec/42_store.md R120). -/
def storeAt (w : Word) (n : Width) (ea v : Word) (s : State) : Host.Outcome State Fault Refusal :=
  match s.memWrite ea n v with
  | .error k => .next (s.raise k (some w) (some ea))
  | .ok s' => .next (s'.complete s.seqPc)

/-- A branch (spec/46_branch.md R160): to `target` if taken, else to the next instruction. -/
def branchTo (taken : Bool) (target : Word) (s : State) : Host.Outcome State Fault Refusal :=
  retireTo (if taken then target else s.seqPc) s

/-! ### Fetch and decode (spec/40_dispatch.md R91 to R93) -/

/-- Actions 2 and 3 of a step: the instruction at `pc`, or the state after the fault that fetching or decoding it raised. -/
def State.fetchDecode (s : State) : Except State Instr :=
  match s.fetch with
  | .error k => .error (s.raise k none (some s.pc))
  | .ok w =>
    match decode w with
    | .error _ => .error (s.raise .illegalInstruction (some w) none)
    | .ok i => .ok i

end Sys2Proof.Machine
end

