-- ==== Sys2Proof/Machine/Operands.lean ====
section
/-! DEFINITION. The operand forms: effective addresses, jump and branch targets, shift amounts and the extension of a
loaded value. -/

namespace Sys2Proof.Machine

/-- The effective address of a load or a store, `x[rs1] + sext(imm)` modulo 2^32 (spec/41_load.md R110,
spec/42_store.md R120, spec/20_memory.md R52; log entry 18). -/
def effAddr (rs1 : RegIdx) (imm : BitVec 12) (s : State) : Word := s.readReg rs1 + extendImm12 imm

/-- The target of a taken branch, modulo 2^32 (spec/46_branch.md R160). -/
def branchTarget (imm : BitVec 13) (s : State) : Word := s.pc + extendImm13 imm

/-- The target of JAL, modulo 2^32 (spec/45_jal.md R150). -/
def jumpTarget (imm : BitVec 21) (s : State) : Word := s.pc + extendImm21 imm

/-- The value JAL links: its own address, not `pc + 4` (spec/45_jal.md R150; C4). -/
def linkValue (s : State) : Word := s.pc

/-- The shift amount of SLL: the low five bits of `x[rs2]` (spec/44_arith_reg.md R142; log entry 15). -/
def shiftAmount (rs2 : RegIdx) (s : State) : BitVec 5 := (s.readReg rs2).setWidth 5

/-- `a << n` within 32 bits (spec/00_scope.md R11). -/
def shiftLeft (a : Word) (n : BitVec 5) : Word := a <<< n.toNat

end Sys2Proof.Machine
end

