-- ==== Sys2Proof/Machine/ArithImm.lean ====
section
/-! DEFINITION. Arithmetic with immediate, opcode 0010011 (spec/43_arith_imm.md). -/

namespace Sys2Proof.Machine

/-- ADDI: `x[rs1] + immI` modulo 2^32 (R130). -/
def execAddi (rd rs1 : RegIdx) (imm : BitVec 12) (s : State) : Host.Outcome State Fault Refusal :=
  retire rd (s.readReg rs1 + extendImm12 imm) s

/-- SLLI: `x[rs1] << shamt` (R131). -/
def execSlli (rd rs1 : RegIdx) (shamt : BitVec 5) (s : State) : Host.Outcome State Fault Refusal :=
  retire rd (shiftLeft (s.readReg rs1) shamt) s

end Sys2Proof.Machine
end

