-- ==== Sys2Proof/Machine/ArithReg.lean ====
section
/-! DEFINITION. Arithmetic on registers, opcode 0110011 (spec/44_arith_reg.md). -/

namespace Sys2Proof.Machine

/-- ADD: `x[rs1] + x[rs2]` modulo 2^32 (R140). -/
def execAdd (rd rs1 rs2 : RegIdx) (s : State) : Host.Outcome State Fault Refusal :=
  retire rd (s.readReg rs1 + s.readReg rs2) s

/-- SUB: `x[rs1] - x[rs2]` modulo 2^32 (R141). -/
def execSub (rd rs1 rs2 : RegIdx) (s : State) : Host.Outcome State Fault Refusal :=
  retire rd (s.readReg rs1 - s.readReg rs2) s

/-- SLL: `x[rs1] << x[rs2][4:0]` (R142). -/
def execSll (rd rs1 rs2 : RegIdx) (s : State) : Host.Outcome State Fault Refusal :=
  retire rd (shiftLeft (s.readReg rs1) (shiftAmount rs2 s)) s

end Sys2Proof.Machine
end

