-- ==== Sys2Proof/Machine/Flags.lean ====
section
/-! DEFINITION. The comparisons. The hardware has no status flags and no condition codes: "Branches compare two registers
directly" (spec/10_state.md R26). -/

namespace Sys2Proof.Machine

/-- BEQ's condition, `x[rs1] == x[rs2]` (spec/46_branch.md R161). -/
def condEq (rs1 rs2 : RegIdx) (s : State) : Bool := decide (s.readReg rs1 = s.readReg rs2)

/-- BNE's condition, `x[rs1] != x[rs2]` (spec/46_branch.md R162). -/
def condNe (rs1 rs2 : RegIdx) (s : State) : Bool := decide (s.readReg rs1 ≠ s.readReg rs2)

/-- BLT's condition, signed (spec/46_branch.md R163). -/
def condLtSigned (rs1 rs2 : RegIdx) (s : State) : Bool :=
  decide ((s.readReg rs1).toInt < (s.readReg rs2).toInt)

/-- BGE's condition, UNSIGNED on this hardware (spec/46_branch.md R164; C3). -/
def condGeUnsigned (rs1 rs2 : RegIdx) (s : State) : Bool :=
  decide ((s.readReg rs2).toNat ≤ (s.readReg rs1).toNat)

end Sys2Proof.Machine
end

