-- ==== Sys2Proof/Machine/Branch.lean ====
section
/-! DEFINITION. Conditional branches, opcode 1100011 (spec/46_branch.md). -/

namespace Sys2Proof.Machine

/-- BEQ (R161). -/
def execBeq (rs1 rs2 : RegIdx) (imm : BitVec 13) (s : State) : Host.Outcome State Fault Refusal :=
  branchTo (condEq rs1 rs2 s) (branchTarget imm s) s

/-- BNE (R162). -/
def execBne (rs1 rs2 : RegIdx) (imm : BitVec 13) (s : State) : Host.Outcome State Fault Refusal :=
  branchTo (condNe rs1 rs2 s) (branchTarget imm s) s

/-- BLT, signed (R163). -/
def execBlt (rs1 rs2 : RegIdx) (imm : BitVec 13) (s : State) : Host.Outcome State Fault Refusal :=
  branchTo (condLtSigned rs1 rs2 s) (branchTarget imm s) s

/-- BGE, unsigned on this hardware (R164). -/
def execBge (rs1 rs2 : RegIdx) (imm : BitVec 13) (s : State) : Host.Outcome State Fault Refusal :=
  branchTo (condGeUnsigned rs1 rs2 s) (branchTarget imm s) s

end Sys2Proof.Machine
end

