-- ==== Sys2Proof/Machine/Jump.lean ====
section
/-! DEFINITION. Jump and link, opcode 1101111 (spec/45_jal.md). -/

namespace Sys2Proof.Machine

/-- JAL: link the JAL's own address and go to the target (R150). A target equal to the JAL's address halts the run after
the link is written (spec/40_dispatch.md R99). -/
def execJal (rd : RegIdx) (imm : BitVec 21) (s : State) : Host.Outcome State Fault Refusal :=
  .next ((s.writeReg rd (linkValue s)).complete (jumpTarget imm s))

end Sys2Proof.Machine
end

