-- ==== Sys2Proof/Machine/Load.lean ====
section
/-! DEFINITION. Loads, opcode 0000011 (spec/41_load.md). -/

namespace Sys2Proof.Machine

/-- LB: a byte, sign-extended (R111). -/
def execLb (rd rs1 : RegIdx) (imm : BitVec 12) (s : State) : Host.Outcome State Fault Refusal :=
  loadInto (encode (.lb rd rs1 imm)) .byte (sext 8) rd (effAddr rs1 imm s) s

/-- LH: a halfword, sign-extended (R112). -/
def execLh (rd rs1 : RegIdx) (imm : BitVec 12) (s : State) : Host.Outcome State Fault Refusal :=
  loadInto (encode (.lh rd rs1 imm)) .half (sext 16) rd (effAddr rs1 imm s) s

/-- LW: a word, as it is (R113). -/
def execLw (rd rs1 : RegIdx) (imm : BitVec 12) (s : State) : Host.Outcome State Fault Refusal :=
  loadInto (encode (.lw rd rs1 imm)) .word id rd (effAddr rs1 imm s) s

/-- LBU: a byte, zero-extended (R114). -/
def execLbu (rd rs1 : RegIdx) (imm : BitVec 12) (s : State) : Host.Outcome State Fault Refusal :=
  loadInto (encode (.lbu rd rs1 imm)) .byte (zext 8) rd (effAddr rs1 imm s) s

/-- LHU: a halfword, zero-extended (R115). -/
def execLhu (rd rs1 : RegIdx) (imm : BitVec 12) (s : State) : Host.Outcome State Fault Refusal :=
  loadInto (encode (.lhu rd rs1 imm)) .half (zext 16) rd (effAddr rs1 imm s) s

end Sys2Proof.Machine
end

