-- ==== Sys2Proof/Machine/Lui.lean ====
section
/-! DEFINITION. Load upper immediate, opcode 0110111 (spec/47_lui.md). -/

namespace Sys2Proof.Machine

/-- LUI: the 20-bit payload in the upper bits, the low 12 bits zero (R170). -/
def execLui (rd : RegIdx) (imm : BitVec 20) (s : State) : Host.Outcome State Fault Refusal :=
  retire rd (upperImm imm) s

end Sys2Proof.Machine
end

