-- ==== Sys2Proof/Machine/Store.lean ====
section
/-! DEFINITION. Stores, opcode 0100011 (spec/42_store.md). -/

namespace Sys2Proof.Machine

/-- SB: the low byte of `x[rs2]` (R121). -/
def execSb (rs1 rs2 : RegIdx) (imm : BitVec 12) (s : State) : Host.Outcome State Fault Refusal :=
  storeAt (encode (.sb rs1 rs2 imm)) .byte (effAddr rs1 imm s) (s.readReg rs2) s

/-- SH: the low halfword of `x[rs2]` (R122). -/
def execSh (rs1 rs2 : RegIdx) (imm : BitVec 12) (s : State) : Host.Outcome State Fault Refusal :=
  storeAt (encode (.sh rs1 rs2 imm)) .half (effAddr rs1 imm s) (s.readReg rs2) s

/-- SW: the word `x[rs2]` (R123). -/
def execSw (rs1 rs2 : RegIdx) (imm : BitVec 12) (s : State) : Host.Outcome State Fault Refusal :=
  storeAt (encode (.sw rs1 rs2 imm)) .word (effAddr rs1 imm s) (s.readReg rs2) s

end Sys2Proof.Machine
end

