-- ==== Sys2Proof/Machine/Launch.lean ====
section
/-! DEFINITION. Launching an image (spec/70_reset_and_hazards.md R210 to R218), and the load that `withFetchWord` stands
for. The image is the input the host supplies before the first step (spec/10_state.md R34). -/

namespace Sys2Proof.Machine

/-- One segment of a launch image: `filebytes` at the start, zero fill up to `memsz` (R212, R213). -/
structure LaunchSegment where
  vaddr : Nat
  memsz : Nat
  filebytes : List Byte
  deriving DecidableEq, Repr

/-- What the host supplies: the segments, the entry address and `STACK_TOP`, whose value the spec leaves to the launch
(R212; D17). -/
structure LaunchImage where
  segments : List LaunchSegment
  entry : Word
  stackTop : Word
  deriving DecidableEq, Repr

/-- Why a launch is refused: no engine state exists and no step is taken (R211). -/
inductive LaunchRefusal where
  /-- The file does not start with the ELF magic (R212). -/
  | badMagic
  /-- The machine field is not RISC-V (R212). -/
  | wrongMachine
  /-- The class is not 32-bit (R212). -/
  | wrongClass
  /-- The program-header count is zero (R212). -/
  | noProgramHeaders
  /-- The file ends inside a field the loader reads (log entry 5). -/
  | truncatedFile
  /-- `p_offset + p_filesz` is beyond the end of the file (R215). -/
  | fileRangeBeyondEnd
  /-- `p_filesz > p_memsz` (R215). -/
  | fileLargerThanSegment
  /-- `p_vaddr + p_memsz > 2^32` (R215). -/
  | beyondAddressSpace
  /-- Two segments' ranges overlap (R215; spec/20_memory.md R43). -/
  | overlappingSegments
  deriving DecidableEq, Repr

/-- `x2`, the register the launch writes `STACK_TOP` to (R217; D18; log entry 16). -/
def stackPointer : RegIdx := 2

/-- The range a launch segment maps (R213). -/
def LaunchSegment.range (g : LaunchSegment) : Segment := { base := g.vaddr, size := g.memsz }

/-- The mapped set of an image, in its order (R213; D33: the order has no effect). -/
def LaunchImage.ranges (img : LaunchImage) : List Segment := img.segments.map LaunchSegment.range

/-- Every segment's file bytes at its base; the rest reads as zero without being listed (R213). -/
def imageMemory : List LaunchSegment → Memory
  | [] => []
  | g :: rest => (imageMemory rest).writeBytes g.vaddr g.filebytes

/-- Two of the segments overlap. -/
def anyOverlap : List Segment → Bool
  | [] => false
  | k :: rest => rest.any (fun l => k.overlaps l) || anyOverlap rest

/-- The checks on an image (R215). The order decides only which reason is given (log entry 6). -/
def LaunchImage.problem (img : LaunchImage) : Option LaunchRefusal :=
  if img.segments.any (fun g => decide (g.memsz < g.filebytes.length)) then some .fileLargerThanSegment
  else if img.segments.any (fun g => decide (Config.addressSpaceSize < g.vaddr + g.memsz)) then some .beyondAddressSpace
  else if anyOverlap img.ranges then some .overlappingSegments
  else none

/-- Steps 1 to 5 of the launch, for an image that is accepted (R218): the state at creation, with the image's segments
and bytes (R213), `pc` at the entry (R216) and `STACK_TOP` in `x2` (R217). The entry is not checked (R216; D36). -/
def LaunchImage.setup (img : LaunchImage) : State :=
  ({ State.reset with
      segs := img.ranges
      mem := imageMemory img.segments
      pc := img.entry } : State).writeReg stackPointer img.stackTop

/-- Launch an image: the state before the first step, or a refusal and no state (R211, R218). -/
def launch (img : LaunchImage) : Except LaunchRefusal State :=
  match img.problem with
  | some r => .error r
  | none => .ok img.setup

/-! ### The load that `withFetchWord` stands for (log entry 4) -/

/-- The segments, with the four bytes at `a` wholly inside one of them: the ones the bytes touch are joined with the
bytes into one, so that a well-formed list stays so. -/
def segsWithWord (segs : List Segment) (a : Nat) : List Segment :=
  let word : Segment := { base := a, size := Config.instrBytes }
  let touching := segs.filter (fun k => k.overlaps word)
  let lo := touching.foldl (fun m k => min m k.base) a
  let hi := touching.foldl (fun m k => max m (k.base + k.size)) (a + Config.instrBytes)
  { base := lo, size := hi - lo } :: segs.filter (fun k => !k.overlaps word)

/-- `s`, able to fetch `w` at its next step: `w` at `pc`, the four bytes mapped, `pc` a multiple of 4, status Running. -/
def State.placeWord (s : State) (w : Word) : State :=
  let a : Word := s.pc &&& 0xFFFFFFFC#32
  { s with
    pc := a
    segs := if (s.accessProblem a .word).isNone then s.segs else segsWithWord s.segs a.toNat
    mem := s.mem.writeLE a.toNat Config.instrBytes w
    status := .running
    fault := none }

end Sys2Proof.Machine
end

