-- ==== Sys2Proof/Machine/Elf.lean ====
section
/-! DEFINITION. From the bytes of an ELF32 file to a launch image (spec/70_reset_and_hazards.md R212 to R215). Reading the
file from storage is the host's (spec/00_scope.md R6; D35). The offsets and constants are R212's table. -/

namespace Sys2Proof.Machine

/-- An `n`-byte field at a file offset, little-endian (R212; D23), or none if the file ends before it does. -/
def fieldLE (file : List Byte) (off : Nat) : Nat → Option Nat
  | 0 => some 0
  | n + 1 =>
    match file[off]?, fieldLE file (off + 1) n with
    | some b, some rest => some (b.toNat + 256 * rest)
    | _, _ => none

/-- A field the loader needs (log entry 5). -/
def needField (file : List Byte) (off n : Nat) : Except LaunchRefusal Nat :=
  match fieldLE file off n with
  | some v => .ok v
  | none => .error .truncatedFile

/-- `e_ident[0..3]` (R212). -/
def elfMagic : List Byte := [0x7F, 0x45, 0x4C, 0x46]

/-- `EM_RISCV` (R212). -/
def elfMachineRiscv : Nat := 243

/-- `ELFCLASS32` (R212). -/
def elfClass32 : Nat := 1

/-- `PT_LOAD`: every other type is ignored (R212, R214). -/
def ptLoad : Nat := 1

/-- The segment of the program header at file offset `h`, or none if its type is not `PT_LOAD` (R212 to R215).
`p_flags` is ignored (spec/20_memory.md R54). -/
def readProgramHeader (file : List Byte) (h : Nat) : Except LaunchRefusal (Option LaunchSegment) := do
  let pType ← needField file h 4
  if pType = ptLoad then
    let pOffset ← needField file (h + 4) 4
    let pVaddr ← needField file (h + 8) 4
    let pFilesz ← needField file (h + 16) 4
    let pMemsz ← needField file (h + 20) 4
    if file.length < pOffset + pFilesz then .error .fileRangeBeyondEnd
    else if pMemsz < pFilesz then .error .fileLargerThanSegment
    else .ok (some { vaddr := pVaddr, memsz := pMemsz, filebytes := (file.drop pOffset).take pFilesz })
  else .ok none

/-- The segments of `n` program headers, the first at offset `h` and `size` bytes apart, in table order (R212, R213). -/
def readProgramHeaders (file : List Byte) (size : Nat) : Nat → Nat → Except LaunchRefusal (List LaunchSegment)
  | 0, _ => .ok []
  | n + 1, h => do
    let first ← readProgramHeader file h
    let rest ← readProgramHeaders file size n (h + size)
    .ok (first.toList ++ rest)

/-- `load_binary` on a file already read: the checks in R212's order, then one segment per `PT_LOAD` header. The entry is
`e_entry`, unchecked (R216). `STACK_TOP` comes from the host (R217). -/
def loadElf (file : List Byte) (stackTop : Word) : Except LaunchRefusal LaunchImage := do
  if file.take 4 ≠ elfMagic then .error .badMagic
  else
    let machine ← needField file 18 2
    let cls ← needField file 4 1
    if machine ≠ elfMachineRiscv then .error .wrongMachine
    else if cls ≠ elfClass32 then .error .wrongClass
    else
      let phnum ← needField file 44 2
      if phnum = 0 then .error .noProgramHeaders
      else
        let entry ← needField file 24 4
        let phoff ← needField file 28 4
        let phentsize ← needField file 42 2
        let segments ← readProgramHeaders file phentsize phnum phoff
        .ok { segments := segments, entry := BitVec.ofNat 32 entry, stackTop := stackTop }

/-- The whole launch from a file (R218): read the image, check it, set the state up. -/
def launchElf (file : List Byte) (stackTop : Word) : Except LaunchRefusal State :=
  match loadElf file stackTop with
  | .error r => .error r
  | .ok img => launch img

end Sys2Proof.Machine
end

