-- ==== Sys2Proof/Machine/Observe.lean ====
section
/-! DEFINITION. The observation output (spec/10_state.md R34, R35): what the host may read, and when. Reading changes
nothing: these are functions of the state. -/

namespace Sys2Proof.Machine

/-- "The host may observe state only once `status` is no longer `Running`" (R35). -/
def State.observable (s : State) : Bool := decide (s.status ≠ .running)

/-- A value, once the state may be observed. -/
def State.observed {α : Type} (s : State) (v : α) : Option α := if s.observable then some v else none

/-- A general register, by index. -/
def State.observeReg (s : State) (i : RegIdx) : Option Word := s.observed (s.readReg i)

/-- A byte of memory, by address; an unmapped address holds none (spec/20_memory.md R42). -/
def State.observeByte (s : State) (a : Nat) : Option Byte := if s.observable then s.byteAt a else none

/-- The status, which R35 lists among what the host may read after the run and not before: while the run lasts the host is
given none, so what it reads is never Running. -/
def State.observeStatus (s : State) : Option Status := s.observed s.status

/-- The fault record, if a fault ended the run. -/
def State.observeFault (s : State) : Option FaultRecord := if s.observable then s.fault else none

/-- The executed-instruction count. -/
def State.observeIcount (s : State) : Option Nat := s.observed s.icount

/-- `pc`, which the spec's index lists among what the host reads after a run (spec/INDEX.md; log entry 11). -/
def State.observePc (s : State) : Option Word := s.observed s.pc

end Sys2Proof.Machine
end

