-- ==== Sys2Proof/Machine/Step.lean ====
section
/-! DEFINITION. One step: fetch, decode and execute one instruction, or raise one fault (spec/40_dispatch.md R90, R91). -/

namespace Sys2Proof.Machine

/-- One step (R91). A step is taken only when status is Running (R90): Halted and Faulted are terminal and "no step is
defined from them" (R101). A fault in fetch or decode is a next step to the Faulted state (spec/60_exceptions.md R192). -/
def step (s : State) : Host.Outcome State Fault Refusal :=
  match s.status with
  | .halted => .fault .engineHalted
  | .faulted => .fault .engineFaulted
  | .running =>
    match s.fetchDecode with
    | .error faulted => .next faulted
    | .ok i => exec i s

/-- `s` with the instruction of an opcode-table word stored where `step` fetches next (log entry 4). -/
def State.withFetchWord (s : State) (nbits w : Nat) : State := s.placeWord (tableWord nbits w)

end Sys2Proof.Machine
end

