-- ==== Sys2Proof/Safety.lean ====
section
/-! DEFINITION. What claims call a sound state, the end of a run, and the frames of an instruction. -/

namespace Sys2Proof.Machine

/-- What every reachable state satisfies and every step keeps. -/
structure State.Inv (s : State) : Prop where
  /-- Memory is in its canonical form. -/
  memory : Memory.wf s.mem = true
  /-- The segments lie in the address space and do not overlap (spec/20_memory.md R43). -/
  segments : segsWf s.segs = true
  /-- Only mapped addresses hold a byte (spec/20_memory.md R42). -/
  mapped : ∀ c ∈ s.mem, (s.owner c.1).isSome = true
  /-- The cell of `x[0]` holds zero (spec/10_state.md R21). -/
  zeroCell : s.regs[0] = 0
  /-- There is a fault record just when a fault ended the run (spec/10_state.md R30). -/
  record : s.fault.isSome = true ↔ s.status = .faulted
  /-- The record holds the `pc` and the `icount` the run ended with (spec/60_exceptions.md R183, R192). -/
  precise : ∀ f, s.fault = some f → f.pc = s.pc ∧ f.icount = s.icount

/-- A run has ended (spec/40_dispatch.md R102). -/
def State.ended (s : State) : Prop := s.status ≠ .running

/-- A run has ended well (spec/40_dispatch.md R102). -/
def State.endedWell (s : State) : Prop := s.status = .halted ∧ s.fault = none

/-! ### Bytes and frames, in the terms claims use -/

/-- All `n` bytes from `a` lie in `owner(a)` (spec/20_memory.md R45: "the bytes `ea .. ea+3`" of "`owner(ea)`"). -/
def State.insideOwner (s : State) (a n : Nat) : Prop := ∃ k, s.owner a = some k ∧ a + n ≤ k.base + k.size

/-- The little-endian number in the `n` bytes from `a`: the sum over `j` of `byte(a + j) * 256 ^ j`
(spec/20_memory.md R45). It says something only where every byte is mapped. -/
def State.bytesNat (s : State) (a : Nat) : Nat → Nat
  | 0 => 0
  | n + 1 => s.bytesNat a n + ((s.byteAt (a + n)).getD 0).toNat * 256 ^ n

/-- Every register but `rd` reads as before. -/
def regsKeptExcept (rd : RegIdx) (s t : State) : Prop := ∀ r, r ≠ rd → t.readReg r = s.readReg r

/-- Every register reads as before. -/
def regsKept (s t : State) : Prop := ∀ r, t.readReg r = s.readReg r

/-- Every address is mapped as before, and holds the byte it held. -/
def memoryKept (s t : State) : Prop := t.segs = s.segs ∧ ∀ a, t.byteAt a = s.byteAt a

/-- Every address is mapped as before, and every address outside `a .. a + n - 1` holds the byte it held. -/
def memoryKeptOutside (a n : Nat) (s t : State) : Prop :=
  t.segs = s.segs ∧ ∀ b, b < a ∨ a + n ≤ b → t.byteAt b = s.byteAt b

/-- The instruction completed and went on to the next one: `pc + 4`, counted, with the status and the fault record as
they were (spec/40_dispatch.md R97 to R99). -/
def wentOn (s t : State) : Prop :=
  t.pc = s.pc + 4 ∧ t.icount = s.icount + 1 ∧ t.status = s.status ∧ t.fault = s.fault

/-- The instruction completed and went to `target`: counted, the fault record as it was, and the run halted just when
the target is the instruction's own address (spec/40_dispatch.md R97 to R99). -/
def wentTo (target : Word) (s t : State) : Prop :=
  t.pc = target ∧ t.icount = s.icount + 1 ∧ t.fault = s.fault ∧
    t.status = (if target = s.pc then Status.halted else s.status)

/-- `s` after a precise fault: `status` and `fault` are written, and `x[0..31]`, every memory byte, `pc` and `icount` keep
their values (spec/60_exceptions.md R182, R183, R192). -/
def faultedWith (kind : FaultKind) (word addr : Option Word) (s : State) : State :=
  { regs := s.regs, pc := s.pc, segs := s.segs, mem := s.mem, status := .faulted,
    fault := some { kind := kind, pc := s.pc, word := word, addr := addr, icount := s.icount }, icount := s.icount }

/-- The fetch at `s.pc` faults if `pc` is not a multiple of 4 or the word is not wholly inside one segment
(spec/20_memory.md R48; spec/60_exceptions.md R185, R186). -/
def fetchFaultsAt (s : State) : Prop :=
  s.status = .running →
    (s.pc.toNat % 4 ≠ 0 → step s = .next (faultedWith .fetchMisaligned none (some s.pc) s)) ∧
    (s.pc.toNat % 4 = 0 → ¬s.insideOwner s.pc.toNat 4 →
      step s = .next (faultedWith .fetchAccessFault none (some s.pc) s))

end Sys2Proof.Machine
end

