-- ==== Sys2Proof/Certificates/Slice0/Obligations.lean ====
section
/-! DEFINITION. The statements for the provers. The first part holds the shapes that several instructions share; each
obligation about an instruction gives its table row's match and mask, its effect, its frame and its faults. In a statement
about `exec` the fault record's `word` is the instruction's encoding (log entry 10); `FaultRecordTellsTheFirstFault` says of
a step that it is the word fetched. -/

open Sys2Proof Sys2Proof.Machine

namespace Sys2Proof.Machine

/-- `i` completes in every state: `x[rd]` becomes `value s` (nothing, for `x0`), the next `pc` is `pc + 4`, and every other
register, every byte of memory, the status and the fault record are unchanged. -/
def writesRegister (i : Instr) (rd : RegIdx) (value : State → Word) : Prop :=
  ∀ s, ∃ t, exec i s = .next t ∧
    t.readReg rd = (if rd = 0 then 0 else value s) ∧ regsKeptExcept rd s t ∧ memoryKept s t ∧ wentOn s t

/-- The words of a load's row, `m` under mask `0x0000707F`, decode to it with the I format's fields. -/
def loadDecodes (mk : RegIdx → RegIdx → BitVec 12 → Instr) (m : Word) : Prop :=
  ∀ w : Word, w &&& 0x0000707F = m →
    decode w = .ok (mk (w.extractLsb' 7 5) (w.extractLsb' 15 5) (w.extractLsb' 20 12))

/-- A load of `n` bytes at an address that is not a multiple of `n` raises LoadMisaligned, whatever owns the address. -/
def loadMisalignedRule (mk : RegIdx → RegIdx → BitVec 12 → Instr) (n : Nat) : Prop :=
  ∀ (rd rs1 : RegIdx) (imm : BitVec 12) (s : State) (ea : Word), ea = s.readReg rs1 + imm.signExtend 32 →
    ea.toNat % n ≠ 0 →
    exec (mk rd rs1 imm) s = .next (faultedWith .loadMisaligned (some (encode (mk rd rs1 imm))) (some ea) s)

/-- A load of `n` bytes at a multiple of `n`. If its bytes are not all in the owner of the first, it raises
LoadAccessFault; otherwise the little-endian number in the `n` bytes, extended, goes to `x[rd]`, and nothing else
changes but `pc` and `icount`. The read is made and can fault for `rd = x0` too. -/
def loadAlignedRule (mk : RegIdx → RegIdx → BitVec 12 → Instr) (n : Nat) (extend : Nat → Word) : Prop :=
  ∀ (rd rs1 : RegIdx) (imm : BitVec 12) (s : State) (ea : Word), ea = s.readReg rs1 + imm.signExtend 32 →
    ea.toNat % n = 0 →
    (¬s.insideOwner ea.toNat n →
      exec (mk rd rs1 imm) s =
        .next (faultedWith .loadAccessFault (some (encode (mk rd rs1 imm))) (some ea) s)) ∧
    (s.insideOwner ea.toNat n →
      ∃ t, exec (mk rd rs1 imm) s = .next t ∧
        t.readReg rd = (if rd = 0 then 0 else extend (s.bytesNat ea.toNat n)) ∧
        regsKeptExcept rd s t ∧ memoryKept s t ∧ wentOn s t)

/-- The words of a store's row, `m` under mask `0x0000707F`, decode to it with the S format's fields. -/
def storeDecodes (mk : RegIdx → RegIdx → BitVec 12 → Instr) (m : Word) : Prop :=
  ∀ w : Word, w &&& 0x0000707F = m →
    decode w = .ok (mk (w.extractLsb' 15 5) (w.extractLsb' 20 5) (immSField w))

/-- A store of `n` bytes at an address that is not a multiple of `n` raises StoreMisaligned, whatever owns the address. -/
def storeMisalignedRule (mk : RegIdx → RegIdx → BitVec 12 → Instr) (n : Nat) : Prop :=
  ∀ (rs1 rs2 : RegIdx) (imm : BitVec 12) (s : State) (ea : Word), ea = s.readReg rs1 + imm.signExtend 32 →
    ea.toNat % n ≠ 0 →
    exec (mk rs1 rs2 imm) s = .next (faultedWith .storeMisaligned (some (encode (mk rs1 rs2 imm))) (some ea) s)

/-- A store of `n` bytes at a multiple of `n`. If its bytes are not all in the owner of the first, it raises
StoreAccessFault; otherwise byte `j` of the address gets bits `8j+7 : 8j` of `x[rs2]` and every byte outside the `n`
stored ones is unchanged. That a stored byte reads back needs the canonical form of memory, which `StepKeepsInvariant`
shows every step keeps. -/
def storeAlignedRule (mk : RegIdx → RegIdx → BitVec 12 → Instr) (n : Nat) : Prop :=
  ∀ (rs1 rs2 : RegIdx) (imm : BitVec 12) (s : State) (ea : Word), ea = s.readReg rs1 + imm.signExtend 32 →
    ea.toNat % n = 0 →
    (¬s.insideOwner ea.toNat n →
      exec (mk rs1 rs2 imm) s =
        .next (faultedWith .storeAccessFault (some (encode (mk rs1 rs2 imm))) (some ea) s)) ∧
    (s.insideOwner ea.toNat n →
      ∃ t, exec (mk rs1 rs2 imm) s = .next t ∧
        (Memory.wf s.mem = true →
          ∀ j, j < n → t.byteAt (ea.toNat + j) = some ((s.readReg rs2).extractLsb' (8 * j) 8)) ∧
        regsKept s t ∧ memoryKeptOutside ea.toNat n s t ∧ wentOn s t)

/-- A branch whose row is `m` under mask `0x0000707F`: to `pc + imm` if the condition holds of `x[rs1]` and `x[rs2]`, in
that order, else to `pc + 4`. It completes in every state and changes no register and no byte. A target that cannot be
fetched faults at the next step, not at the branch. -/
def branchRule (mk : RegIdx → RegIdx → BitVec 13 → Instr) (m : Word) (cond : Word → Word → Prop) : Prop :=
  (∀ w : Word, w &&& 0x0000707F = m →
    decode w = .ok (mk (w.extractLsb' 15 5) (w.extractLsb' 20 5) (immBField w))) ∧
  ∀ (rs1 rs2 : RegIdx) (imm : BitVec 13) (s : State),
    ∃ t, exec (mk rs1 rs2 imm) s = .next t ∧
      (cond (s.readReg rs1) (s.readReg rs2) → wentTo (s.pc + imm.signExtend 32) s t) ∧
      (¬cond (s.readReg rs1) (s.readReg rs2) → wentOn s t) ∧
      regsKept s t ∧ memoryKept s t ∧ fetchFaultsAt t

/-- The opcode and funct3 of a word that decodes (spec/30_encoding.md R76, R78). -/
def handled (w : Word) : Prop :=
  (w.extractLsb' 0 7 = 0b0000011 ∧ w.extractLsb' 12 3 ∈ [0b000#3, 0b001#3, 0b010#3, 0b100#3, 0b101#3]) ∨
  (w.extractLsb' 0 7 = 0b0100011 ∧ w.extractLsb' 12 3 ∈ [0b000#3, 0b001#3, 0b010#3]) ∨
  (w.extractLsb' 0 7 = 0b0010011 ∧ w.extractLsb' 12 3 ∈ [0b000#3, 0b001#3]) ∨
  (w.extractLsb' 0 7 = 0b0110011 ∧ w.extractLsb' 12 3 ∈ [0b000#3, 0b001#3]) ∨
  w.extractLsb' 0 7 = 0b1101111 ∨
  (w.extractLsb' 0 7 = 0b1100011 ∧ w.extractLsb' 12 3 ∈ [0b000#3, 0b001#3, 0b100#3, 0b101#3]) ∨
  w.extractLsb' 0 7 = 0b0110111

/-- The branch in `w` is taken in `s` (spec/46_branch.md R161 to R164). -/
def branchTaken (w : Word) (s : State) : Prop :=
  (w &&& 0x0000707F = 0x00000063 ∧ s.readReg (w.extractLsb' 15 5) = s.readReg (w.extractLsb' 20 5)) ∨
  (w &&& 0x0000707F = 0x00001063 ∧ s.readReg (w.extractLsb' 15 5) ≠ s.readReg (w.extractLsb' 20 5)) ∨
  (w &&& 0x0000707F = 0x00004063 ∧ (s.readReg (w.extractLsb' 15 5)).toInt < (s.readReg (w.extractLsb' 20 5)).toInt) ∨
  (w &&& 0x0000707F = 0x00005063 ∧ (s.readReg (w.extractLsb' 20 5)).toNat ≤ (s.readReg (w.extractLsb' 15 5)).toNat)

/-- The width of a data access, by the funct3 of a load or a store: 1, 2 or 4 bytes (spec/20_memory.md R51). -/
def accessBytes (w : Word) : Nat := 2 ^ (w.extractLsb' 12 2).toNat

/-- A run of single steps from `s` to `t`. -/
inductive Reaches : State → State → Prop where
  | refl (s : State) : Reaches s s
  | step {s t u : State} : Reaches s t → Machine.step t = .next u → Reaches s u

end Sys2Proof.Machine

/-! ### Encoding -/

/-- Decoding the word of a well-formed instruction gives it back, for every operand value its encoding admits: no bit of
an operand is dropped (spec/30_encoding.md sections 1 to 3). -/
def Obligations.DecodeOfEncodeIsIdentity : Prop := ∀ i : Instr, WellFormed i → decode (encode i) = .ok i

/-- A word that decodes, decodes to a well-formed instruction whose word it is. The fault record's `word` is the encoding
of the instruction (log entry 10), so by this it is the word fetched. -/
def Obligations.EncodeOfDecodeIsIdentity : Prop :=
  ∀ (w : Word) (i : Instr), decode w = .ok i → WellFormed i ∧ encode i = w

/-- Words written out from the encodings decode to the instructions they stand for (spec/95_test_vectors.md). -/
def Obligations.SampleWordsDecode : Prop :=
  decode 0xFFF10093 = .ok (.addi 1 2 0xFFF) ∧ decode 0x40311093 = .ok (.slli 1 2 3 0b0100000) ∧
  decode 0x022081B3 = .ok (.sub 3 1 2 0b0000001) ∧ decode 0xFFC0A183 = .ok (.lw 3 1 0xFFC) ∧
  decode 0xFE208FA3 = .ok (.sb 1 2 0xFFF) ∧ decode 0xFE029EE3 = .ok (.bne 5 0 0x1FFC) ∧
  decode 0x7FFFF0EF = .ok (.jal 1 0x0FFFFE) ∧ decode 0x123450B7 = .ok (.lui 1 0x12345)

/-- R69 to R73: the immediates, bit by bit, with their ranges, and that the fields `decode` hands on are the ones they
extend. -/
def Obligations.ImmediatesFollowTheFormats : Prop :=
  ∀ w : Word,
    (immI w = (w.extractLsb' 20 12).signExtend 32 ∧ -2048 ≤ (immI w).toInt ∧ (immI w).toInt ≤ 2047) ∧
    (immS w = ((w.extractLsb' 7 5).setWidth 12 ||| (w.extractLsb' 25 7).setWidth 12 <<< 5).signExtend 32 ∧
      immS w = (immSField w).signExtend 32 ∧ -2048 ≤ (immS w).toInt ∧ (immS w).toInt ≤ 2047) ∧
    (immB w = ((w.extractLsb' 8 4).setWidth 13 <<< 1 ||| (w.extractLsb' 25 6).setWidth 13 <<< 5 |||
        (w.extractLsb' 7 1).setWidth 13 <<< 11 ||| (w.extractLsb' 31 1).setWidth 13 <<< 12).signExtend 32 ∧
      immB w = (immBField w).signExtend 32 ∧ (immB w).toInt % 2 = 0 ∧ -4096 ≤ (immB w).toInt ∧
      (immB w).toInt ≤ 4094) ∧
    (immU w = w &&& 0xFFFFF000 ∧ (immU w).toNat = (w.extractLsb' 12 20).toNat * 2 ^ 12) ∧
    (immJ w = ((w.extractLsb' 21 10).setWidth 21 <<< 1 ||| (w.extractLsb' 20 1).setWidth 21 <<< 11 |||
        (w.extractLsb' 12 8).setWidth 21 <<< 12 ||| (w.extractLsb' 31 1).setWidth 21 <<< 20).signExtend 32 ∧
      immJ w = (immJField w).signExtend 32 ∧ (immJ w).toInt % 2 = 0 ∧ -1048576 ≤ (immJ w).toInt ∧
      (immJ w).toInt ≤ 1048574)

/-- R184, R116, R124, R132, R143, R165: a fetched word whose opcode, or whose funct3 within its opcode, is not handled
raises IllegalInstruction with the word and changes nothing else; every other fetched word decodes. -/
def Obligations.UnhandledWordsRaiseIllegalInstruction : Prop :=
  ∀ (s : State) (w : Word), s.status = .running → s.fetch = .ok w →
    (¬handled w → step s = .next (faultedWith .illegalInstruction (some w) none s)) ∧
    (handled w → ∃ i, decode w = .ok i ∧ step s = exec i s)

/-! ### Loads and stores -/

/-- R111: LB. Every address is a multiple of 1, so it cannot be misaligned. -/
def Obligations.LbLoadsSignExtendedByte : Prop :=
  loadDecodes .lb 0x00000003 ∧ loadAlignedRule .lb 1 (fun v => (BitVec.ofNat 8 v).signExtend 32)

/-- R112: LH. -/
def Obligations.LhLoadsSignExtendedHalfword : Prop :=
  loadDecodes .lh 0x00001003 ∧ loadMisalignedRule .lh 2 ∧
    loadAlignedRule .lh 2 (fun v => (BitVec.ofNat 16 v).signExtend 32)

/-- R113: LW. -/
def Obligations.LwLoadsWord : Prop :=
  loadDecodes .lw 0x00002003 ∧ loadMisalignedRule .lw 4 ∧ loadAlignedRule .lw 4 (BitVec.ofNat 32)

/-- R114: LBU. -/
def Obligations.LbuLoadsZeroExtendedByte : Prop :=
  loadDecodes .lbu 0x00004003 ∧ loadAlignedRule .lbu 1 (BitVec.ofNat 32)

/-- R115: LHU. -/
def Obligations.LhuLoadsZeroExtendedHalfword : Prop :=
  loadDecodes .lhu 0x00005003 ∧ loadMisalignedRule .lhu 2 ∧ loadAlignedRule .lhu 2 (BitVec.ofNat 32)

/-- R121: SB. -/
def Obligations.SbStoresLowByte : Prop := storeDecodes .sb 0x00000023 ∧ storeAlignedRule .sb 1

/-- R122: SH. -/
def Obligations.ShStoresLowHalfword : Prop :=
  storeDecodes .sh 0x00001023 ∧ storeMisalignedRule .sh 2 ∧ storeAlignedRule .sh 2

/-- R123: SW. -/
def Obligations.SwStoresWord : Prop :=
  storeDecodes .sw 0x00002023 ∧ storeMisalignedRule .sw 4 ∧ storeAlignedRule .sw 4

/-! ### Arithmetic -/

/-- R130: ADDI. -/
def Obligations.AddiAddsImmediate : Prop :=
  (∀ w : Word, w &&& 0x0000707F = 0x00000013 →
    decode w = .ok (.addi (w.extractLsb' 7 5) (w.extractLsb' 15 5) (w.extractLsb' 20 12))) ∧
  ∀ (rd rs1 : RegIdx) (imm : BitVec 12),
    writesRegister (.addi rd rs1 imm) rd (fun s => s.readReg rs1 + imm.signExtend 32)

/-- R131: SLLI. The shift amount is `w[24:20]`, and `w[31:25]` is not tested. -/
def Obligations.SlliShiftsByImmediate : Prop :=
  (∀ w : Word, w &&& 0x0000707F = 0x00001013 →
    decode w = .ok (.slli (w.extractLsb' 7 5) (w.extractLsb' 15 5) (w.extractLsb' 20 5) (w.extractLsb' 25 7))) ∧
  ∀ (rd rs1 : RegIdx) (shamt : BitVec 5) (ignored : BitVec 7),
    writesRegister (.slli rd rs1 shamt ignored) rd
      (fun s => BitVec.ofNat 32 ((s.readReg rs1).toNat * 2 ^ shamt.toNat))

/-- R140: ADD, selected by funct7 zero alone. -/
def Obligations.AddAddsRegisters : Prop :=
  (∀ w : Word, w &&& 0xFE00707F = 0x00000033 →
    decode w = .ok (.add (w.extractLsb' 7 5) (w.extractLsb' 15 5) (w.extractLsb' 20 5))) ∧
  ∀ rd rs1 rs2 : RegIdx, writesRegister (.add rd rs1 rs2) rd (fun s => s.readReg rs1 + s.readReg rs2)

/-- R141: SUB, selected by any nonzero funct7. -/
def Obligations.SubSubtractsRegisters : Prop :=
  (∀ w : Word, w &&& 0x0000707F = 0x00000033 → w.extractLsb' 25 7 ≠ 0 →
    decode w = .ok (.sub (w.extractLsb' 7 5) (w.extractLsb' 15 5) (w.extractLsb' 20 5) (w.extractLsb' 25 7))) ∧
  ∀ (rd rs1 rs2 : RegIdx) (f7 : BitVec 7),
    writesRegister (.sub rd rs1 rs2 f7) rd (fun s => s.readReg rs1 - s.readReg rs2)

/-- R142: SLL. Only the low five bits of `x[rs2]` count, and funct7 is not tested. -/
def Obligations.SllShiftsByRegister : Prop :=
  (∀ w : Word, w &&& 0x0000707F = 0x00001033 →
    decode w = .ok (.sll (w.extractLsb' 7 5) (w.extractLsb' 15 5) (w.extractLsb' 20 5) (w.extractLsb' 25 7))) ∧
  ∀ (rd rs1 rs2 : RegIdx) (f7 : BitVec 7),
    writesRegister (.sll rd rs1 rs2 f7) rd
      (fun s => BitVec.ofNat 32 ((s.readReg rs1).toNat * 2 ^ ((s.readReg rs2).toNat % 32)))

/-- R170: LUI. -/
def Obligations.LuiLoadsUpperImmediate : Prop :=
  (∀ w : Word, w &&& 0x0000007F = 0x00000037 →
    decode w = .ok (.lui (w.extractLsb' 7 5) (w.extractLsb' 12 20))) ∧
  ∀ (rd : RegIdx) (imm : BitVec 20),
    writesRegister (.lui rd imm) rd (fun _ => BitVec.ofNat 32 (imm.toNat * 2 ^ 12))

/-! ### Control transfer -/

/-- R150: JAL links its own address and goes to `pc + imm`. Offset zero halts the run after the link is written. A target
that cannot be fetched faults at the next step, not at the JAL. -/
def Obligations.JalLinksOwnAddress : Prop :=
  (∀ w : Word, w &&& 0x0000007F = 0x0000006F → decode w = .ok (.jal (w.extractLsb' 7 5) (immJField w))) ∧
  ∀ (rd : RegIdx) (imm : BitVec 21) (s : State),
    ∃ t, exec (.jal rd imm) s = .next t ∧
      t.readReg rd = (if rd = 0 then 0 else s.pc) ∧ wentTo (s.pc + imm.signExtend 32) s t ∧
      regsKeptExcept rd s t ∧ memoryKept s t ∧ fetchFaultsAt t

/-- R161: BEQ. -/
def Obligations.BeqBranchesIfEqual : Prop := branchRule .beq 0x00000063 (fun a b => a = b)

/-- R162: BNE. -/
def Obligations.BneBranchesIfNotEqual : Prop := branchRule .bne 0x00001063 (fun a b => a ≠ b)

/-- R163: BLT compares signed. -/
def Obligations.BltBranchesIfSignedLess : Prop := branchRule .blt 0x00004063 (fun a b => a.toInt < b.toInt)

/-- R164: BGE compares unsigned. -/
def Obligations.BgeBranchesIfUnsignedNotLess : Prop := branchRule .bge 0x00005063 (fun a b => b.toNat ≤ a.toNat)

/-! ### The step -/

/-- A running engine whose `pc` is a multiple of 4 with four mapped bytes that decode to an instruction runs that
instruction: the step is `exec` of it, with nothing around it (R48, R91). -/
def Obligations.StepRunsDecodedInstruction : Prop :=
  ∀ (s : State) (i : Instr), s.status = .running → s.pc.toNat % 4 = 0 → s.insideOwner s.pc.toNat 4 →
    decode (BitVec.ofNat 32 (s.bytesNat s.pc.toNat 4)) = .ok i → step s = exec i s

/-- R48: `Fetch(pc)`. -/
def Obligations.FetchChecksThenReadsLittleEndian : Prop :=
  ∀ s : State,
    (s.pc.toNat % 4 ≠ 0 → s.fetch = .error .fetchMisaligned) ∧
    (s.pc.toNat % 4 = 0 → ¬s.insideOwner s.pc.toNat 4 → s.fetch = .error .fetchAccessFault) ∧
    (s.pc.toNat % 4 = 0 → s.insideOwner s.pc.toNat 4 →
      s.fetch = .ok (BitVec.ofNat 32 (s.bytesNat s.pc.toNat 4))) ∧
    fetchFaultsAt s

/-- R98: a completed step counts one instruction, the halting one too, and a faulting step counts none. A completed step
halts the run just when it leaves `pc` where it was (R99). -/
def Obligations.StepsCountCompletedInstructions : Prop :=
  ∀ s t : State, step s = .next t →
    (t.status = .faulted → t.icount = s.icount) ∧
    (t.status ≠ .faulted →
      t.icount = s.icount + 1 ∧ t.fault = s.fault ∧ (t.status = .halted ↔ t.pc = s.pc))

/-- A run is halted by a JAL with offset zero, by a taken branch with offset zero, and by nothing else. R100 marks this as
an inference of the spec's own, from R99, R95, R150, R160 and R25. -/
def Obligations.OnlySelfTargetingTransfersHalt : Prop :=
  ∀ s t : State, step s = .next t →
    (t.status = .halted ↔
      ∃ w, s.fetch = .ok w ∧
        (w &&& 0xFFFFF07F = 0x0000006F ∨ (branchTaken w s ∧ immB w = 0)))

/-- R101: no step is taken from Halted or Faulted, and a running engine always takes one. -/
def Obligations.OnlyRunningEnginesStep : Prop :=
  ∀ s : State, (s.status ≠ .running → ∀ t, step s ≠ .next t) ∧ (s.status = .running → ∃ t, step s = .next t)

/-- R25, R95: a completed step goes to `pc + 4`, unless the word is JAL or a taken branch. -/
def Obligations.OnlyJalAndTakenBranchesLeaveSequence : Prop :=
  ∀ (s t : State) (w : Word), step s = .next t → t.status ≠ .faulted → s.fetch = .ok w →
    ¬w &&& 0x0000007F = 0x0000006F → ¬branchTaken w s → t.pc = s.pc + 4

/-- Offsets are even and `pc` is a multiple of 4 when an instruction completes, so the next `pc` is even (R71, R73, R48). -/
def Obligations.CompletedStepsLeavePcEven : Prop :=
  ∀ s t : State, step s = .next t → t.status ≠ .faulted → t.pc.toNat % 2 = 0

/-- Only a store changes a byte (opcode 0100011), and it does so in the bytes of its one access (R51). -/
def Obligations.OnlyStoresChangeMemory : Prop :=
  ∀ (s t : State) (w : Word), step s = .next t → s.fetch = .ok w →
    (w.extractLsb' 0 7 ≠ 0b0100011 → memoryKept s t) ∧
    (w.extractLsb' 0 7 = 0b0100011 →
      memoryKeptOutside (s.readReg (w.extractLsb' 15 5) + immS w).toNat (accessBytes w) s t ∧ regsKept s t)

/-- R31, R197: no instruction can read `icount`. Two states that differ only in `icount` step to states that agree in
every register, in memory, in `pc` and in status. -/
def Obligations.IcountIsInvisibleToInstructions : Prop :=
  ∀ (s t : State) (n : Nat), step s = .next t →
    ∃ u, step { s with icount := n } = .next u ∧
      u.regs = t.regs ∧ u.mem = t.mem ∧ u.segs = t.segs ∧ u.pc = t.pc ∧ u.status = t.status

/-! ### Faults -/

/-- R192: a faulting step changes `status` and `fault` alone, the record holds `pc` and `icount` (R183), and no step
follows. -/
def Obligations.FaultsArePrecise : Prop :=
  ∀ s t : State, step s = .next t → t.status = .faulted →
    (∃ kind word addr, t = faultedWith kind word addr s) ∧ ∀ u, step t ≠ .next u

/-- R182, R191: the record says what was raised, and each kind is raised only when no kind before it in the order was:
fetch misaligned, fetch access, illegal, data misaligned, data access. -/
def Obligations.FaultRecordTellsTheFirstFault : Prop :=
  FaultKind.fetchMisaligned.code = 0 ∧ FaultKind.fetchAccessFault.code = 1 ∧ FaultKind.illegalInstruction.code = 2 ∧
  FaultKind.loadMisaligned.code = 4 ∧ FaultKind.loadAccessFault.code = 5 ∧ FaultKind.storeMisaligned.code = 6 ∧
  FaultKind.storeAccessFault.code = 7 ∧
  ∀ (s t : State) (f : FaultRecord), step s = .next t → t.status = .faulted → t.fault = some f →
    match f.kind with
    | .fetchMisaligned => s.pc.toNat % 4 ≠ 0 ∧ f.addr = some s.pc ∧ f.word = none
    | .fetchAccessFault =>
      s.pc.toNat % 4 = 0 ∧ ¬s.insideOwner s.pc.toNat 4 ∧ f.addr = some s.pc ∧ f.word = none
    | .illegalInstruction => ∃ w, s.fetch = .ok w ∧ ¬handled w ∧ f.addr = none ∧ f.word = some w
    | .loadMisaligned =>
      ∃ w ea, s.fetch = .ok w ∧ handled w ∧ w.extractLsb' 0 7 = 0b0000011 ∧
        ea = s.readReg (w.extractLsb' 15 5) + immI w ∧ ea.toNat % accessBytes w ≠ 0 ∧
        f.addr = some ea ∧ f.word = some w
    | .loadAccessFault =>
      ∃ w ea, s.fetch = .ok w ∧ handled w ∧ w.extractLsb' 0 7 = 0b0000011 ∧
        ea = s.readReg (w.extractLsb' 15 5) + immI w ∧ ea.toNat % accessBytes w = 0 ∧
        ¬s.insideOwner ea.toNat (accessBytes w) ∧ f.addr = some ea ∧ f.word = some w
    | .storeMisaligned =>
      ∃ w ea, s.fetch = .ok w ∧ handled w ∧ w.extractLsb' 0 7 = 0b0100011 ∧
        ea = s.readReg (w.extractLsb' 15 5) + immS w ∧ ea.toNat % accessBytes w ≠ 0 ∧
        f.addr = some ea ∧ f.word = some w
    | .storeAccessFault =>
      ∃ w ea, s.fetch = .ok w ∧ handled w ∧ w.extractLsb' 0 7 = 0b0100011 ∧
        ea = s.readReg (w.extractLsb' 15 5) + immS w ∧ ea.toNat % accessBytes w = 0 ∧
        ¬s.insideOwner ea.toNat (accessBytes w) ∧ f.addr = some ea ∧ f.word = some w

/-! ### Registers and memory -/

/-- R21: `x[0]` reads as zero and ignores writes, in every state; any other register reads as it was last written, and a
write leaves the others alone. -/
def Obligations.RegisterZeroIsHardwired : Prop :=
  ∀ (s : State) (i j : RegIdx) (v : Word),
    s.readReg 0 = 0 ∧ s.writeReg 0 v = s ∧ (i ≠ 0 → (s.writeReg i v).readReg i = v) ∧
    (j ≠ i → (s.writeReg i v).readReg j = s.readReg j)

/-- R44: `owner(a)` is the segment that covers `a`, or none if no segment does. The segments do not overlap (R43). -/
def Obligations.OwnerIsTheCoveringSegment : Prop :=
  ∀ (s : State) (a : Nat), s.Inv →
    (∀ k, s.owner a = some k ↔ k ∈ s.segs ∧ k.base ≤ a ∧ a < k.base + k.size) ∧
    (s.owner a = none ↔ s.byteAt a = none)

/-- R41: the mapped set is the union of the segments' ranges, and no step changes it. -/
def Obligations.MappedSetIsFixed : Prop :=
  (∀ (s : State) (a : Nat), (s.byteAt a).isSome = true ↔ ∃ k ∈ s.segs, k.base ≤ a ∧ a < k.base + k.size) ∧
  ∀ s t : State, Reaches s t → t.segs = s.segs ∧ ∀ a, (t.byteAt a).isSome = (s.byteAt a).isSome

/-- R45: `MemRead(a, n)`. -/
def Obligations.MemReadChecksThenReadsLittleEndian : Prop :=
  ∀ (s : State) (a : Word) (n : Width),
    (a.toNat % n.bytes ≠ 0 → s.memRead a n = .error .loadMisaligned) ∧
    (a.toNat % n.bytes = 0 → ¬s.insideOwner a.toNat n.bytes → s.memRead a n = .error .loadAccessFault) ∧
    (a.toNat % n.bytes = 0 → s.insideOwner a.toNat n.bytes →
      s.memRead a n = .ok (BitVec.ofNat 32 (s.bytesNat a.toNat n.bytes)) ∧
      s.bytesNat a.toNat n.bytes < 2 ^ (8 * n.bytes))

/-- R46: `MemWrite(a, n, v)`. Every check comes before the first byte is written, and a write that passes changes the `n`
bytes and nothing else. -/
def Obligations.MemWriteChecksThenWritesLittleEndian : Prop :=
  ∀ (s : State) (a : Word) (n : Width) (v : Word),
    (a.toNat % n.bytes ≠ 0 → s.memWrite a n v = .error .storeMisaligned) ∧
    (a.toNat % n.bytes = 0 → ¬s.insideOwner a.toNat n.bytes → s.memWrite a n v = .error .storeAccessFault) ∧
    (a.toNat % n.bytes = 0 → s.insideOwner a.toNat n.bytes →
      ∃ t, s.memWrite a n v = .ok t ∧
        (Memory.wf s.mem = true →
          Memory.wf t.mem = true ∧ ∀ j, j < n.bytes → t.byteAt (a.toNat + j) = some (v.extractLsb' (8 * j) 8)) ∧
        memoryKeptOutside a.toNat n.bytes s t ∧ t = { s with mem := t.mem })

/-- R49: after a word is written, a narrower read gives its little-endian sub-slice, and a read of the width written gives
the low bits written. The premise rules out overlapping segments, which no launch makes and no step brings about
(`InvariantHoldsAfterLaunch`, `StepKeepsInvariant`). -/
def Obligations.MixedWidthReadsSeeSubSlices : Prop :=
  ∀ (s t : State) (a : Word) (v : Word), s.Inv →
    (s.memWrite a .word v = .ok t →
      (∀ j : Nat, j < 4 → t.memRead (a + BitVec.ofNat 32 j) .byte = .ok ((v.extractLsb' (8 * j) 8).setWidth 32)) ∧
      t.memRead a .half = .ok ((v.extractLsb' 0 16).setWidth 32) ∧
      t.memRead (a + 2) .half = .ok ((v.extractLsb' 16 16).setWidth 32)) ∧
    (∀ n : Width, s.memWrite a n v = .ok t →
      t.memRead a n = .ok (BitVec.ofNat 32 (v.toNat % 2 ^ (8 * n.bytes))))

/-- R221: a store to an instruction word is seen by the very next fetch of that word. -/
def Obligations.StoredWordIsFetchedNext : Prop :=
  ∀ (s t : State) (rs1 rs2 : RegIdx) (imm : BitVec 12), Memory.wf s.mem = true →
    (s.readReg rs1 + imm.signExtend 32).toNat % 4 = 0 → s.insideOwner (s.readReg rs1 + imm.signExtend 32).toNat 4 →
    exec (.sw rs1 rs2 imm) s = .next t →
    ({ t with pc := s.readReg rs1 + imm.signExtend 32 } : State).fetch = .ok (s.readReg rs2) ∧
    (s.readReg rs1 + imm.signExtend 32 = s.pc + 4 → t.fetch = .ok (s.readReg rs2))

/-! ### Reset and launch -/

/-- R210: at creation all 32 registers and `pc` are zero, status is Running, there is no fault and `icount` is zero. -/
def Obligations.ResetStateIsZero : Prop :=
  (∀ r : RegIdx, State.reset.readReg r = 0) ∧ State.reset.pc = 0 ∧ State.reset.status = .running ∧
  State.reset.fault = none ∧ State.reset.icount = 0

/-- R217, R216, R211: a launch puts the entry in `pc` and `STACK_TOP` in `x2`, leaves every other register zero, and starts
Running with no fault and nothing counted. -/
def Obligations.LaunchSetsEntryAndStackPointer : Prop :=
  ∀ (img : LaunchImage) (s : State), launch img = .ok s →
    s.pc = img.entry ∧ s.readReg 2 = img.stackTop ∧ (∀ r : RegIdx, r ≠ 2 → s.readReg r = 0) ∧
    s.status = .running ∧ s.fault = none ∧ s.icount = 0

/-- R213, R42: after a launch each segment holds its file bytes and then zeros up to its memory size, and an address in
no segment holds no byte. -/
def Obligations.LaunchFillsSegments : Prop :=
  ∀ (img : LaunchImage) (s : State), launch img = .ok s →
    (∀ g ∈ img.segments, ∀ j, j < g.memsz → s.byteAt (g.vaddr + j) = some (g.filebytes[j]?.getD 0)) ∧
    ∀ a, (∀ g ∈ img.segments, ¬(g.vaddr ≤ a ∧ a < g.vaddr + g.memsz)) → s.byteAt a = none

/-- R215: an image is refused just when a segment's file bytes are more than its size, a segment goes past `2^32`, or two
segments share an address. The entry and `STACK_TOP` are not checked (R216). -/
def Obligations.LaunchRefusesBadSegments : Prop :=
  ∀ img : LaunchImage,
    (∃ r, launch img = .error r) ↔
      (∃ g ∈ img.segments, g.memsz < g.filebytes.length) ∨
      (∃ g ∈ img.segments, 2 ^ 32 < g.vaddr + g.memsz) ∨
      ¬img.segments.Pairwise (fun g h =>
        ∀ a, ¬((g.vaddr ≤ a ∧ a < g.vaddr + g.memsz) ∧ (h.vaddr ≤ a ∧ a < h.vaddr + h.memsz)))

/-- R212: a file yields an image just when it has the ELF magic, the 32-bit class, the RISC-V machine and at least one
program header, and the `e_phnum` headers from `e_phoff`, `e_phentsize` bytes apart, yield the image's segments; the entry
is `e_entry` and `STACK_TOP` the one given. A file that ends inside a field it needs yields none (log entry 5). The launch of
a file is the launch of its image. -/
def Obligations.ElfHeaderIsChecked : Prop :=
  (∀ (file : List Byte) (stackTop : Word) (img : LaunchImage), loadElf file stackTop = .ok img ↔
    file.take 4 = [0x7F, 0x45, 0x4C, 0x46] ∧ file[4]? = some 1 ∧ file[18]? = some 0xF3 ∧ file[19]? = some 0 ∧
    img.stackTop = stackTop ∧
    (∃ b0 b1 b2 b3, file[24]? = some b0 ∧ file[25]? = some b1 ∧ file[26]? = some b2 ∧ file[27]? = some b3 ∧
      img.entry.toNat = b0.toNat + 256 * b1.toNat + 256 ^ 2 * b2.toNat + 256 ^ 3 * b3.toNat) ∧
    ∃ phoff phentsize phnum, fieldLE file 28 4 = some phoff ∧ fieldLE file 42 2 = some phentsize ∧
      fieldLE file 44 2 = some phnum ∧ phnum ≠ 0 ∧
      readProgramHeaders file phentsize phnum phoff = .ok img.segments) ∧
  ∀ (file : List Byte) (stackTop : Word) (s : State),
    launchElf file stackTop = .ok s ↔ ∃ img, loadElf file stackTop = .ok img ∧ launch img = .ok s

/-- A field is the little-endian number in its bytes (R212; D23), and a file that ends before the field does has none. -/
def Obligations.ElfFieldsAreLittleEndian : Prop :=
  ∀ (file : List Byte) (off n v : Nat), 0 < n →
    (fieldLE file off n = some v ↔
      off + n ≤ file.length ∧
        v = ((List.range n).map fun j => (file[off + j]?.getD 0).toNat * 256 ^ j).sum)

/-- R212, R213: the headers at `h`, `h + size`, …, `n` of them, yield the segments of those that have one, in table order;
they yield none just when one of them yields none. -/
def Obligations.ProgramHeadersAreReadInTableOrder : Prop :=
  ∀ (file : List Byte) (size n h : Nat) (gs : List LaunchSegment),
    readProgramHeaders file size n h = .ok gs ↔
      ∃ found : List (Option LaunchSegment), found.length = n ∧
        (∀ i o, found[i]? = some o → readProgramHeader file (h + i * size) = .ok o) ∧ gs = found.filterMap id

/-- R213, R215: a `PT_LOAD` header gives a segment at `p_vaddr` of size `p_memsz` whose bytes are the file's from
`p_offset`, unless its file range is beyond the file or larger than the segment; a header of any other type gives none
(R214). That a header with both faults is refused for its file range is the model's choice (log entry 6). -/
def Obligations.ProgramHeaderGivesSegment : Prop :=
  ∀ (file : List Byte) (h pType pOffset pVaddr pFilesz pMemsz : Nat),
    fieldLE file h 4 = some pType → fieldLE file (h + 4) 4 = some pOffset → fieldLE file (h + 8) 4 = some pVaddr →
    fieldLE file (h + 16) 4 = some pFilesz → fieldLE file (h + 20) 4 = some pMemsz →
    (pType ≠ 1 → readProgramHeader file h = .ok none) ∧
    (pType = 1 → file.length < pOffset + pFilesz → readProgramHeader file h = .error .fileRangeBeyondEnd) ∧
    (pType = 1 → pOffset + pFilesz ≤ file.length → pMemsz < pFilesz →
      readProgramHeader file h = .error .fileLargerThanSegment) ∧
    (pType = 1 → pOffset + pFilesz ≤ file.length → pFilesz ≤ pMemsz →
      ∃ g : LaunchSegment, readProgramHeader file h = .ok (some g) ∧ g.vaddr = pVaddr ∧ g.memsz = pMemsz ∧
        g.filebytes.length = pFilesz ∧ ∀ j, j < pFilesz → g.filebytes[j]? = file[pOffset + j]?)

/-- R214: program headers none of which is `PT_LOAD` give no segment; the launch of an image with no segment is accepted,
and its first fetch raises FetchAccessFault (for an entry that is a multiple of 4; any other raises FetchMisaligned, R191). -/
def Obligations.NoLoadableHeaderFaultsAtFirstFetch : Prop :=
  (∀ (file : List Byte) (size n h : Nat),
    (∀ i, i < n → ∃ v, fieldLE file (h + i * size) 4 = some v ∧ v ≠ 1) →
    readProgramHeaders file size n h = .ok []) ∧
  ∀ entry stackTop : Word, ∃ s, launch { segments := [], entry := entry, stackTop := stackTop } = .ok s ∧
    (entry.toNat % 4 = 0 → step s = .next (faultedWith .fetchAccessFault none (some entry) s)) ∧
    (entry.toNat % 4 ≠ 0 → step s = .next (faultedWith .fetchMisaligned none (some entry) s))

/-- R35: while the engine is running the host is given nothing; after the run it is given the registers, the mapped bytes,
the status, the fault record, `icount` and `pc` as they stand. That `pc` is among them is the model's reading (log entry
11). -/
def Obligations.HostObservesOnlyEndedRuns : Prop :=
  ∀ (s : State) (i : RegIdx) (a : Nat),
    (s.status = .running →
      s.observeReg i = none ∧ s.observeByte a = none ∧ s.observeStatus = none ∧ s.observeFault = none ∧
        s.observeIcount = none ∧ s.observePc = none) ∧
    (s.status ≠ .running →
      s.observeReg i = some (s.readReg i) ∧ s.observeByte a = s.byteAt a ∧ s.observeStatus = some s.status ∧
        s.observeFault = s.fault ∧
        s.observeIcount = some s.icount ∧ s.observePc = some s.pc)

/-! ### Invariants -/

/-- The invariant holds at reset. -/
def Obligations.InvariantHoldsAtReset : Prop := State.reset.Inv

/-- The invariant holds after every accepted launch (R43, R213, R215). -/
def Obligations.InvariantHoldsAfterLaunch : Prop := ∀ (img : LaunchImage) (s : State), launch img = .ok s → s.Inv

/-- Every step keeps the invariant: memory stays canonical and within the mapped set, the segments stay disjoint, `x[0]`'s
cell stays zero, and there is a fault record, with the final `pc` and `icount`, just when status is Faulted. -/
def Obligations.StepKeepsInvariant : Prop := ∀ s t : State, s.Inv → step s = .next t → t.Inv

/-- R102, R30: every run from an accepted launch that has ended either ended well (Halted, no fault) or is Faulted with a
record that holds the `pc` and the `icount` it ended with. -/
def Obligations.EndedRunsEndWellOrFaulted : Prop :=
  ∀ (img : LaunchImage) (s t : State), launch img = .ok s → Reaches s t → t.ended →
    t.endedWell ∨ (t.status = .faulted ∧ ∃ f, t.fault = some f ∧ f.pc = t.pc ∧ f.icount = t.icount)
end

