-- ==== Sys2Proof/Laws/Elf.lean ====
section
/-! SUPPORT. What the functions that read an ELF file can answer, one field, one header or one step of a table at a time
(spec/70_reset_and_hazards.md R212 to R215). -/

namespace Sys2Proof.Machine

variable (file : List Byte)

@[simp] theorem fieldLE_zero (off : Nat) : fieldLE file off 0 = some 0 := rfl

/-- A field of one byte more has its first byte least significant. -/
theorem fieldLE_succ_iff (off n v : Nat) :
    fieldLE file off (n + 1) = some v ↔
      ∃ b rest, file[off]? = some b ∧ fieldLE file (off + 1) n = some rest ∧ v = b.toNat + 256 * rest := by
  rw [fieldLE]
  cases file[off]? <;> cases fieldLE file (off + 1) n <;> simp [eq_comm]

theorem needField_ok_iff (off n v : Nat) : needField file off n = .ok v ↔ fieldLE file off n = some v := by
  unfold needField
  cases fieldLE file off n <;> simp

/-- A file that holds every byte of a field holds the field. -/
theorem fieldLE_isSome (off n : Nat) (h : off + n ≤ file.length) : ∃ v, fieldLE file off n = some v := by
  induction n generalizing off with
  | zero => exact ⟨0, rfl⟩
  | succ n ih =>
    obtain ⟨rest, hr⟩ := ih (off + 1) (by omega)
    exact ⟨_, (fieldLE_succ_iff ..).mpr ⟨file[off], rest, List.getElem?_eq_getElem (by omega), hr, rfl⟩⟩

@[simp] theorem readProgramHeaders_zero (size h : Nat) : readProgramHeaders file size 0 h = .ok [] := rfl

/-- A table of one header more: its segment, if it has one, before those of the rest. -/
theorem readProgramHeaders_succ_iff (size n h : Nat) (gs : List LaunchSegment) :
    readProgramHeaders file size (n + 1) h = .ok gs ↔
      ∃ first rest, readProgramHeader file h = .ok first ∧ readProgramHeaders file size n (h + size) = .ok rest ∧
        gs = first.toList ++ rest := by
  rw [readProgramHeaders]
  cases readProgramHeader file h <;> cases readProgramHeaders file size n (h + size) <;>
    simp [bind, Except.bind, eq_comm]

/-- The launch of a file is the launch of the image it yields. -/
theorem launchElf_of_loadElf {stackTop : Word} {img : LaunchImage} (h : loadElf file stackTop = .ok img) :
    launchElf file stackTop = launch img := by
  simp [launchElf, h]

end Sys2Proof.Machine
end

