-- ==== Sys2Proof/Laws/Encoding.lean ====
section
/-! SUPPORT. Fields of encoded words, words rebuilt from their fields, and what a mask test says about the opcode and
funct3. -/

namespace Sys2Proof

variable (f7 op : BitVec 7) (rd rs1 rs2 : RegIdx) (f3 : BitVec 3)

/-! ### R format (spec/30_encoding.md R62) -/

@[simp] theorem opcode_encodeR : opcode (encodeR f7 rs2 rs1 f3 rd op) = op := by
  ext i hi; simp [opcode, encodeR, place]; interval_cases i <;> simp
@[simp] theorem rdField_encodeR : rdField (encodeR f7 rs2 rs1 f3 rd op) = rd := by
  ext i hi; simp [rdField, encodeR, place]; interval_cases i <;> simp
@[simp] theorem funct3_encodeR : funct3 (encodeR f7 rs2 rs1 f3 rd op) = f3 := by
  ext i hi; simp [funct3, encodeR, place]; interval_cases i <;> simp
@[simp] theorem rs1Field_encodeR : rs1Field (encodeR f7 rs2 rs1 f3 rd op) = rs1 := by
  ext i hi; simp [rs1Field, encodeR, place]; interval_cases i <;> simp
@[simp] theorem rs2Field_encodeR : rs2Field (encodeR f7 rs2 rs1 f3 rd op) = rs2 := by
  ext i hi; simp [rs2Field, encodeR, place]; interval_cases i <;> simp
@[simp] theorem funct7_encodeR : funct7 (encodeR f7 rs2 rs1 f3 rd op) = f7 := by
  ext i hi; simp [funct7, encodeR, place]; interval_cases i <;> simp
@[simp] theorem shamtField_encodeR : shamtField (encodeR f7 rs2 rs1 f3 rd op) = rs2 := rs2Field_encodeR ..

/-! ### I format (spec/30_encoding.md R63) -/

@[simp] theorem opcode_encodeI (imm : BitVec 12) : opcode (encodeI imm rs1 f3 rd op) = op := by
  ext i hi; simp [opcode, encodeI, place]; interval_cases i <;> simp
@[simp] theorem rdField_encodeI (imm : BitVec 12) : rdField (encodeI imm rs1 f3 rd op) = rd := by
  ext i hi; simp [rdField, encodeI, place]; interval_cases i <;> simp
@[simp] theorem funct3_encodeI (imm : BitVec 12) : funct3 (encodeI imm rs1 f3 rd op) = f3 := by
  ext i hi; simp [funct3, encodeI, place]; interval_cases i <;> simp
@[simp] theorem rs1Field_encodeI (imm : BitVec 12) : rs1Field (encodeI imm rs1 f3 rd op) = rs1 := by
  ext i hi; simp [rs1Field, encodeI, place]; interval_cases i <;> simp
@[simp] theorem immIField_encodeI (imm : BitVec 12) : immIField (encodeI imm rs1 f3 rd op) = imm := by
  ext i hi; simp [immIField, encodeI, place]; interval_cases i <;> simp

/-! ### S format (spec/30_encoding.md R64) -/

@[simp] theorem opcode_encodeS (imm : BitVec 12) : opcode (encodeS imm rs2 rs1 f3 op) = op := by
  ext i hi; simp [opcode, encodeS, place]; interval_cases i <;> simp
@[simp] theorem funct3_encodeS (imm : BitVec 12) : funct3 (encodeS imm rs2 rs1 f3 op) = f3 := by
  ext i hi; simp [funct3, encodeS, place]; interval_cases i <;> simp
@[simp] theorem rs1Field_encodeS (imm : BitVec 12) : rs1Field (encodeS imm rs2 rs1 f3 op) = rs1 := by
  ext i hi; simp [rs1Field, encodeS, place]; interval_cases i <;> simp
@[simp] theorem rs2Field_encodeS (imm : BitVec 12) : rs2Field (encodeS imm rs2 rs1 f3 op) = rs2 := by
  ext i hi; simp [rs2Field, encodeS, place]; interval_cases i <;> simp
@[simp] theorem immSField_encodeS (imm : BitVec 12) : immSField (encodeS imm rs2 rs1 f3 op) = imm := by
  ext i hi; simp [immSField, encodeS, place]; interval_cases i <;> simp

/-! ### B format (spec/30_encoding.md R65) -/

@[simp] theorem opcode_encodeB (imm : BitVec 13) : opcode (encodeB imm rs2 rs1 f3 op) = op := by
  ext i hi; simp [opcode, encodeB, place]; interval_cases i <;> simp
@[simp] theorem funct3_encodeB (imm : BitVec 13) : funct3 (encodeB imm rs2 rs1 f3 op) = f3 := by
  ext i hi; simp [funct3, encodeB, place]; interval_cases i <;> simp
@[simp] theorem rs1Field_encodeB (imm : BitVec 13) : rs1Field (encodeB imm rs2 rs1 f3 op) = rs1 := by
  ext i hi; simp [rs1Field, encodeB, place]; interval_cases i <;> simp
@[simp] theorem rs2Field_encodeB (imm : BitVec 13) : rs2Field (encodeB imm rs2 rs1 f3 op) = rs2 := by
  ext i hi; simp [rs2Field, encodeB, place]; interval_cases i <;> simp
/-- Bit 0 of an offset is not encoded, so it comes back when it is zero (R71). -/
theorem immBField_encodeB (imm : BitVec 13) (h : evenOffset imm = true) :
    immBField (encodeB imm rs2 rs1 f3 op) = imm := by
  ext i hi; simp [immBField, encodeB, place, evenOffset] at h ⊢; interval_cases i <;> simp [h]

/-! ### U format (spec/30_encoding.md R66) -/

@[simp] theorem opcode_encodeU (imm : BitVec 20) : opcode (encodeU imm rd op) = op := by
  ext i hi; simp [opcode, encodeU, place]; interval_cases i <;> simp
@[simp] theorem rdField_encodeU (imm : BitVec 20) : rdField (encodeU imm rd op) = rd := by
  ext i hi; simp [rdField, encodeU, place]; interval_cases i <;> simp
@[simp] theorem immUField_encodeU (imm : BitVec 20) : immUField (encodeU imm rd op) = imm := by
  ext i hi; simp [immUField, encodeU, place]; interval_cases i <;> simp

/-! ### J format (spec/30_encoding.md R67) -/

@[simp] theorem opcode_encodeJ (imm : BitVec 21) : opcode (encodeJ imm rd op) = op := by
  ext i hi; simp [opcode, encodeJ, place]; interval_cases i <;> simp
@[simp] theorem rdField_encodeJ (imm : BitVec 21) : rdField (encodeJ imm rd op) = rd := by
  ext i hi; simp [rdField, encodeJ, place]; interval_cases i <;> simp
/-- Bit 0 of an offset is not encoded, so it comes back when it is zero (R73). -/
theorem immJField_encodeJ (imm : BitVec 21) (h : evenOffset imm = true) :
    immJField (encodeJ imm rd op) = imm := by
  ext i hi; simp [immJField, encodeJ, place, evenOffset] at h ⊢; interval_cases i <;> simp [h]

/-! ### Every word is rebuilt from its fields -/

theorem getLsbD_place (w : Nat) {n : Nat} (v : BitVec n) (k i : Nat) :
    (place w v k).getLsbD i = (decide (i < w) && decide (k ≤ i) && v.getLsbD (i - k)) := by
  simp only [place, BitVec.getLsbD_shiftLeft, BitVec.getLsbD_setWidth]
  by_cases h : i < w
  · by_cases h' : k ≤ i
    · simp [h, h', show i - k < w by omega, show ¬i < k by omega]
    · simp [h', show i < k by omega]
  · simp [h]

variable (w : Word)

/-- A field put back where it was read. -/
theorem getLsbD_place_field (lo len i : Nat) :
    (place 32 (w.extractLsb' lo len) lo).getLsbD i =
      (decide (i < 32) && decide (lo ≤ i) && decide (i < lo + len) && w.getLsbD i) := by
  rw [getLsbD_place, BitVec.getLsbD_extractLsb']
  by_cases h : lo ≤ i
  · have h' : (decide (i - lo < len)) = decide (i < lo + len) := by simp; omega
    rw [show lo + (i - lo) = i by omega, h', Bool.and_assoc, Bool.and_assoc, Bool.and_assoc]
  · simp [h]

@[simp] theorem immSField_low : (immSField w).extractLsb' 0 5 = w.extractLsb' 7 5 := by
  ext i hi; simp [immSField, place]; interval_cases i <;> simp
@[simp] theorem immSField_high : (immSField w).extractLsb' 5 7 = w.extractLsb' 25 7 := by
  ext i hi; simp [immSField, place]; interval_cases i <;> simp
@[simp] theorem immBField_4_1 : (immBField w).extractLsb' 1 4 = w.extractLsb' 8 4 := by
  ext i hi; simp [immBField, place]; interval_cases i <;> simp
@[simp] theorem immBField_10_5 : (immBField w).extractLsb' 5 6 = w.extractLsb' 25 6 := by
  ext i hi; simp [immBField, place]; interval_cases i <;> simp
@[simp] theorem immBField_11 : (immBField w).extractLsb' 11 1 = w.extractLsb' 7 1 := by
  ext i hi; simp [immBField, place]; interval_cases i; simp
@[simp] theorem immBField_12 : (immBField w).extractLsb' 12 1 = w.extractLsb' 31 1 := by
  ext i hi; simp [immBField, place]; interval_cases i; simp
@[simp] theorem immJField_10_1 : (immJField w).extractLsb' 1 10 = w.extractLsb' 21 10 := by
  ext i hi; simp [immJField, place]; interval_cases i <;> simp
@[simp] theorem immJField_11 : (immJField w).extractLsb' 11 1 = w.extractLsb' 20 1 := by
  ext i hi; simp [immJField, place]; interval_cases i; simp
@[simp] theorem immJField_19_12 : (immJField w).extractLsb' 12 8 = w.extractLsb' 12 8 := by
  ext i hi; simp [immJField, place]; interval_cases i <;> simp
@[simp] theorem immJField_20 : (immJField w).extractLsb' 20 1 = w.extractLsb' 31 1 := by
  ext i hi; simp [immJField, place]; interval_cases i; simp

theorem encodeR_fields : encodeR (funct7 w) (rs2Field w) (rs1Field w) (funct3 w) (rdField w) (opcode w) = w := by
  apply BitVec.eq_of_getLsbD_eq
  intro i hi
  simp only [encodeR, funct7, rs2Field, rs1Field, funct3, rdField, opcode, BitVec.getLsbD_or,
    getLsbD_place_field]
  cases w.getLsbD i
  · simp
  · simp; omega

theorem encodeI_fields : encodeI (immIField w) (rs1Field w) (funct3 w) (rdField w) (opcode w) = w := by
  apply BitVec.eq_of_getLsbD_eq
  intro i hi
  simp only [encodeI, immIField, rs1Field, funct3, rdField, opcode, BitVec.getLsbD_or,
    getLsbD_place_field]
  cases w.getLsbD i
  · simp
  · simp; omega

theorem encodeS_fields : encodeS (immSField w) (rs2Field w) (rs1Field w) (funct3 w) (opcode w) = w := by
  apply BitVec.eq_of_getLsbD_eq
  intro i hi
  simp only [encodeS, immSField_low, immSField_high, rs2Field, rs1Field, funct3, opcode, BitVec.getLsbD_or,
    getLsbD_place_field]
  cases w.getLsbD i
  · simp
  · simp; omega

theorem encodeB_fields : encodeB (immBField w) (rs2Field w) (rs1Field w) (funct3 w) (opcode w) = w := by
  apply BitVec.eq_of_getLsbD_eq
  intro i hi
  simp only [encodeB, immBField_4_1, immBField_10_5, immBField_11, immBField_12, rs2Field,
    rs1Field, funct3, opcode, BitVec.getLsbD_or,
    getLsbD_place_field]
  cases w.getLsbD i
  · simp
  · simp; omega

theorem encodeU_fields : encodeU (immUField w) (rdField w) (opcode w) = w := by
  apply BitVec.eq_of_getLsbD_eq
  intro i hi
  simp only [encodeU, immUField, rdField, opcode, BitVec.getLsbD_or,
    getLsbD_place_field]
  cases w.getLsbD i
  · simp
  · simp; omega

theorem encodeJ_fields : encodeJ (immJField w) (rdField w) (opcode w) = w := by
  apply BitVec.eq_of_getLsbD_eq
  intro i hi
  simp only [encodeJ, immJField_10_1, immJField_11, immJField_19_12, immJField_20, rdField, opcode, BitVec.getLsbD_or,
    getLsbD_place_field]
  cases w.getLsbD i
  · simp
  · simp; omega

/-- Bit 0 of a branch offset read from a word is zero (R71). -/
theorem immBField_even : evenOffset (immBField w) = true := by simp [evenOffset, immBField, place]

/-- Bit 0 of a jump offset read from a word is zero (R73). -/
theorem immJField_even : evenOffset (immJField w) = true := by simp [evenOffset, immJField, place]

/-! ### The opcode map -/

/-- A word whose opcode has a class decodes by that class. -/
theorem decode_of_class {w : Word} {c : OpClass} (h : opClass? (opcode w) = some c) : decode w = decodeClass c w := by
  simp only [decode, h]

/-- A word that decodes has an opcode with a class. -/
theorem class_of_decode {w : Word} {i : Instr} (h : decode w = .ok i) :
    ∃ c, opClass? (opcode w) = some c ∧ decodeClass c w = .ok i := by
  unfold decode at h
  cases hc : opClass? (opcode w) with
  | none => simp [hc] at h
  | some c => exact ⟨c, rfl, by simpa [hc] using h⟩

/-- A class comes from its own opcode alone (spec/30_encoding.md R75). -/
theorem opClass?_eq_some_iff (op : BitVec 7) (c : OpClass) : opClass? op = some c ↔ (op, c) ∈ dispatchTable := by
  revert op
  cases c <;> decide

/-! ### Masks (the table's "match" and "mask") -/

/-- A field that a mask keeps whole reads the same through the mask. -/
theorem field_of_mask (m : Word) (lo len : Nat) (h : m.extractLsb' lo len = BitVec.allOnes len) :
    (w &&& m).extractLsb' lo len = w.extractLsb' lo len := by
  rw [BitVec.extractLsb'_and, h, BitVec.and_allOnes]

/-- The mask of the rows that test the opcode alone. -/
theorem opcode_of_mask (m : Word) (h : w &&& 0x0000007F = m) : opcode w = opcode m :=
  h ▸ (field_of_mask w _ 0 7 (by decide)).symm

/-- The mask of the rows that test the opcode and funct3. -/
theorem opcode_funct3_of_mask (m : Word) (h : w &&& 0x0000707F = m) : opcode w = opcode m ∧ funct3 w = funct3 m :=
  ⟨h ▸ (field_of_mask w _ 0 7 (by decide)).symm, h ▸ (field_of_mask w _ 12 3 (by decide)).symm⟩

/-- The mask of ADD's row, which tests funct7 as well. -/
theorem opcode_funct3_funct7_of_mask (m : Word) (h : w &&& 0xFE00707F = m) :
    opcode w = opcode m ∧ funct3 w = funct3 m ∧ funct7 w = funct7 m :=
  ⟨h ▸ (field_of_mask w _ 0 7 (by decide)).symm, h ▸ (field_of_mask w _ 12 3 (by decide)).symm,
    h ▸ (field_of_mask w _ 25 7 (by decide)).symm⟩

end Sys2Proof
end

