-- ==== Sys2Proof/Laws/Memory.lean ====
section
/-! SUPPORT. Bytes of memory: a read after a write, what a write leaves alone, and that every operation keeps the
canonical form. -/

namespace Sys2Proof.Machine

/-! ### One byte -/

theorem Memory.wf_cons (k : Nat) (v : Byte) (rest : Memory) :
    Memory.wf ((k, v) :: rest) = true ↔
      v ≠ Memory.unlisted ∧ k < Config.addressSpaceSize ∧ (∀ c ∈ rest, k < c.1) ∧ Memory.wf rest = true := by
  simp [Memory.wf, and_assoc]

/-- Below its first address a canonical memory lists nothing. -/
theorem Memory.read_below (m : Memory) (a : Nat) (h : ∀ c ∈ m, a < c.1) : m.read a = Memory.unlisted := by
  induction m with
  | nil => rfl
  | cons c rest ih =>
    obtain ⟨k, v⟩ := c
    have hk : a < k := h (k, v) (by simp)
    rw [Memory.read, if_neg (by omega)]
    exact ih (fun c hc => h c (by simp [hc]))

theorem Memory.read_put_same (a : Nat) (b : Byte) (rest : Memory) (h : ∀ c ∈ rest, a < c.1) :
    (Memory.put a b rest).read a = b := by
  unfold Memory.put
  split
  · rename_i hb; rw [Memory.read_below rest a h, hb]
  · simp [Memory.read]

theorem Memory.read_put_other (a x : Nat) (b : Byte) (rest : Memory) (h : x ≠ a) :
    (Memory.put a b rest).read x = rest.read x := by
  unfold Memory.put
  split
  · rfl
  · simp [Memory.read, h]

/-- A write leaves every other address alone. -/
theorem Memory.read_write_other (m : Memory) (a x : Nat) (b : Byte) (h : x ≠ a) :
    (m.write a b).read x = m.read x := by
  induction m with
  | nil => exact Memory.read_put_other a x b [] h
  | cons c rest ih =>
    obtain ⟨k, v⟩ := c
    unfold Memory.write
    split
    · exact Memory.read_put_other a x b _ h
    · split
      · rename_i hk
        rw [Memory.read_put_other a x b rest h, Memory.read, if_neg (by omega)]
      · simp [Memory.read, ih]

/-- A read after a write to the same address gives the byte written. -/
theorem Memory.read_write_same (m : Memory) (a : Nat) (b : Byte) (h : m.wf = true) : (m.write a b).read a = b := by
  induction m with
  | nil => exact Memory.read_put_same a b [] (by simp)
  | cons c rest ih =>
    obtain ⟨k, v⟩ := c
    obtain ⟨_, _, hbelow, hrest⟩ := (Memory.wf_cons k v rest).mp h
    unfold Memory.write
    split
    · rename_i hk
      refine Memory.read_put_same a b _ (fun c hc => ?_)
      rcases List.mem_cons.mp hc with rfl | hc
      · exact hk
      · exact lt_trans hk (hbelow c hc)
    · split
      · rename_i hk; subst hk; exact Memory.read_put_same _ b rest hbelow
      · rename_i hne; rw [Memory.read, if_neg hne]; exact ih hrest

/-- The addresses listed after a write are the address written and addresses listed before. -/
theorem Memory.mem_write (m : Memory) (a : Nat) (b : Byte) (c : Host.Cell) (h : c ∈ m.write a b) : c.1 = a ∨ c ∈ m := by
  have put : ∀ rest : Memory, c ∈ Memory.put a b rest → c.1 = a ∨ c ∈ rest := by
    intro rest hc
    unfold Memory.put at hc
    split at hc
    · exact Or.inr hc
    · rcases List.mem_cons.mp hc with rfl | hc
      · exact Or.inl rfl
      · exact Or.inr hc
  induction m with
  | nil => exact put [] h
  | cons d rest ih =>
    obtain ⟨k, v⟩ := d
    unfold Memory.write at h
    split at h
    · exact put _ h
    · split at h
      · exact (put rest h).imp_right (List.mem_cons_of_mem _)
      · rcases List.mem_cons.mp h with rfl | h
        · exact Or.inr (by simp)
        · exact (ih h).imp_right (List.mem_cons_of_mem _)

/-- A write within the address space keeps the canonical form. -/
theorem Memory.wf_write (m : Memory) (a : Nat) (b : Byte) (ha : a < Config.addressSpaceSize) (h : m.wf = true) :
    (m.write a b).wf = true := by
  have put : ∀ rest : Memory, (∀ c ∈ rest, a < c.1) → rest.wf = true → (Memory.put a b rest).wf = true := by
    intro rest hbelow hrest
    unfold Memory.put
    split
    · exact hrest
    · rename_i hb; exact (Memory.wf_cons a b rest).mpr ⟨hb, ha, hbelow, hrest⟩
  induction m with
  | nil => exact put [] (by simp) rfl
  | cons c rest ih =>
    obtain ⟨k, v⟩ := c
    obtain ⟨hv, hk, hbelow, hrest⟩ := (Memory.wf_cons k v rest).mp h
    unfold Memory.write
    split
    · rename_i hak
      refine put _ (fun c hc => ?_) h
      rcases List.mem_cons.mp hc with rfl | hc
      · exact hak
      · exact lt_trans hak (hbelow c hc)
    · split
      · rename_i hak; subst hak; exact put rest hbelow hrest
      · rename_i hle hne
        refine (Memory.wf_cons k v _).mpr ⟨hv, hk, fun c hc => ?_, ih hrest⟩
        rcases Memory.mem_write rest a b c hc with hc | hc
        · omega
        · exact hbelow c hc

/-! ### Runs of bytes -/

@[simp] theorem bytesLE_length (n : Nat) (w : Word) : (bytesLE n w).length = n := by
  induction n generalizing w with
  | zero => rfl
  | succ n ih => simp [bytesLE, ih]

/-- Writing bytes leaves every address outside their range alone. -/
theorem Memory.read_writeBytes_outside (bs : List Byte) (m : Memory) (a x : Nat) (h : x < a ∨ a + bs.length ≤ x) :
    (m.writeBytes a bs).read x = m.read x := by
  induction bs generalizing m a with
  | nil => rfl
  | cons b bs ih =>
    simp only [List.length_cons] at h
    rw [Memory.writeBytes, ih _ _ (by omega), Memory.read_write_other _ _ _ _ (by omega)]

/-- Writing bytes within the address space keeps the canonical form. -/
theorem Memory.wf_writeBytes (bs : List Byte) (m : Memory) (a : Nat) (ha : a + bs.length ≤ Config.addressSpaceSize)
    (h : m.wf = true) : (m.writeBytes a bs).wf = true := by
  induction bs generalizing m a with
  | nil => exact h
  | cons b bs ih =>
    simp only [List.length_cons] at ha
    exact ih _ _ (by omega) (Memory.wf_write m a b (by omega) h)

/-- Each address of the range reads as the byte written there. -/
theorem Memory.read_writeBytes_inside (bs : List Byte) (m : Memory) (a j : Nat) (hj : j < bs.length)
    (ha : a + bs.length ≤ Config.addressSpaceSize) (h : m.wf = true) :
    (m.writeBytes a bs).read (a + j) = bs[j] := by
  induction bs generalizing m a j with
  | nil => simp at hj
  | cons b bs ih =>
    simp only [List.length_cons] at ha hj
    have hwf := Memory.wf_write m a b (by omega) h
    cases j with
    | zero =>
      rw [Memory.writeBytes, Memory.read_writeBytes_outside _ _ _ _ (by omega)]
      exact Memory.read_write_same m a b h
    | succ j =>
      rw [Memory.writeBytes, show a + (j + 1) = (a + 1) + j by omega]
      exact ih _ _ j (by omega) (by omega) hwf

/-- The addresses listed after writing bytes are those of the range and addresses listed before. -/
theorem Memory.mem_writeBytes (bs : List Byte) (m : Memory) (a : Nat) (c : Host.Cell) (h : c ∈ m.writeBytes a bs) :
    (a ≤ c.1 ∧ c.1 < a + bs.length) ∨ c ∈ m := by
  induction bs generalizing m a with
  | nil => exact Or.inr h
  | cons b bs ih =>
    simp only [List.length_cons]
    rcases ih _ _ h with h | h
    · left; omega
    · rcases Memory.mem_write m a b c h with h | h
      · left; omega
      · exact Or.inr h

/-- Byte `j` of the little-endian layout is bits `8j+7 : 8j` (spec/20_memory.md R46). -/
theorem bytesLE_getElem (n : Nat) (w : Word) (j : Nat) (h : j < n) :
    (bytesLE n w)[j]'(by simpa using h) = w.extractLsb' (8 * j) 8 := by
  induction n generalizing w j with
  | zero => omega
  | succ n ih =>
    cases j with
    | zero => ext i hi; simp [bytesLE]
    | succ j =>
      simp only [bytesLE, List.getElem_cons_succ]
      rw [ih _ j (by omega)]
      ext i hi
      simp [BitVec.getLsbD_ushiftRight]
      congr 1
      omega

/-! ### Reading little-endian (spec/20_memory.md R45) -/

/-- Reading depends only on the bytes read. -/
theorem Memory.readLE_congr (m m' : Memory) (a n : Nat) (h : ∀ j, j < n → m'.read (a + j) = m.read (a + j)) :
    m'.readLE a n = m.readLE a n := by
  induction n generalizing a with
  | zero => rfl
  | succ n ih =>
    have h0 := h 0 (by omega)
    simp only [Nat.add_zero] at h0
    have hr := ih (a + 1) (fun j hj => by have := h (j + 1) (by omega); rwa [show a + (j + 1) = a + 1 + j by omega] at this)
    simp [Memory.readLE, h0, hr]

/-- A one-byte read (R45). -/
theorem Memory.readLE_one (m : Memory) (a : Nat) : m.readLE a 1 = (m.read a).setWidth 32 := by
  simp [Memory.readLE]

/-- A two-byte read: the lowest address is least significant (R45). -/
theorem Memory.readLE_two (m : Memory) (a : Nat) : m.readLE a 2 = place 32 (m.read a) 0 ||| place 32 (m.read (a + 1)) 8 := by
  ext i hi
  simp [Memory.readLE, place]

/-- A four-byte read: the lowest address is least significant (R45). -/
theorem Memory.readLE_four (m : Memory) (a : Nat) :
    m.readLE a 4 = wordLE (m.read a) (m.read (a + 1)) (m.read (a + 2)) (m.read (a + 3)) := by
  ext i hi
  simp [Memory.readLE, wordLE, place]
  grind

end Sys2Proof.Machine
end

