-- ==== Sys2Proof/Laws/State.lean ====
section
/-! SUPPORT. The small lemmas of the state's updates: one per field per update, and what each update does to a register
read, an owner and a byte. -/

namespace Sys2Proof.Machine

variable (s : State) (i j : RegIdx) (v n : Word) (k : FaultKind) (w a : Option Word) (m : Memory)

/-! ### Reading registers -/

@[simp] theorem readReg_zero : s.readReg 0#5 = 0#32 := rfl

@[simp] theorem readReg_replicate_zero (h : s.regs = Vector.replicate 32 0) : s.readReg i = 0 := by
  simp [State.readReg, h]

/-! ### Writing a register -/

@[simp] theorem writeReg_zero : s.writeReg 0#5 v = s := rfl
@[simp] theorem writeReg_pc : (s.writeReg i v).pc = s.pc := by unfold State.writeReg; split <;> rfl
@[simp] theorem writeReg_segs : (s.writeReg i v).segs = s.segs := by unfold State.writeReg; split <;> rfl
@[simp] theorem writeReg_mem : (s.writeReg i v).mem = s.mem := by unfold State.writeReg; split <;> rfl
@[simp] theorem writeReg_status : (s.writeReg i v).status = s.status := by unfold State.writeReg; split <;> rfl
@[simp] theorem writeReg_fault : (s.writeReg i v).fault = s.fault := by unfold State.writeReg; split <;> rfl
@[simp] theorem writeReg_icount : (s.writeReg i v).icount = s.icount := by unfold State.writeReg; split <;> rfl

/-- A read after a write to the same register; `x[0]` stays zero (spec/10_state.md R21). -/
theorem readReg_writeReg_same : (s.writeReg i v).readReg i = if i = 0 then 0 else v := by
  unfold State.writeReg State.readReg
  split
  · rfl
  · exact Vector.getElem_set_self ..

/-- A write leaves every other register alone. -/
theorem readReg_writeReg_other (h : j ≠ i) : (s.writeReg i v).readReg j = s.readReg j := by
  unfold State.writeReg State.readReg
  split
  · rfl
  · split
    · rfl
    · exact Vector.getElem_set_ne i.isLt j.isLt (fun e => h (BitVec.eq_of_toNat_eq e.symm))

/-- No write reaches the cell of `x[0]`. -/
theorem writeReg_zeroCell : (s.writeReg i v).regs[0] = s.regs[0] := by
  unfold State.writeReg
  split
  · rfl
  · rename_i h
    exact Vector.getElem_set_ne i.isLt (by omega) (fun e => h (BitVec.eq_of_toNat_eq (by simpa using e)))

/-! ### Completing an instruction -/

@[simp] theorem complete_pc : (s.complete n).pc = n := rfl
@[simp] theorem complete_icount : (s.complete n).icount = s.icount + 1 := rfl
@[simp] theorem complete_status : (s.complete n).status = if n = s.pc then .halted else s.status := rfl
@[simp] theorem complete_fault : (s.complete n).fault = s.fault := rfl
@[simp] theorem complete_regs : (s.complete n).regs = s.regs := rfl
@[simp] theorem complete_segs : (s.complete n).segs = s.segs := rfl
@[simp] theorem complete_mem : (s.complete n).mem = s.mem := rfl
@[simp] theorem complete_readReg : (s.complete n).readReg i = s.readReg i := rfl
@[simp] theorem complete_owner (x : Nat) : (s.complete n).owner x = s.owner x := rfl
@[simp] theorem complete_byteAt (x : Nat) : (s.complete n).byteAt x = s.byteAt x := rfl

/-! ### Raising a fault -/

@[simp] theorem raise_pc : (s.raise k w a).pc = s.pc := rfl
@[simp] theorem raise_icount : (s.raise k w a).icount = s.icount := rfl
@[simp] theorem raise_status : (s.raise k w a).status = .faulted := rfl
@[simp] theorem raise_fault : (s.raise k w a).fault = some ⟨k, s.pc, w, a, s.icount⟩ := rfl
@[simp] theorem raise_regs : (s.raise k w a).regs = s.regs := rfl
@[simp] theorem raise_segs : (s.raise k w a).segs = s.segs := rfl
@[simp] theorem raise_mem : (s.raise k w a).mem = s.mem := rfl
@[simp] theorem raise_readReg : (s.raise k w a).readReg i = s.readReg i := rfl
@[simp] theorem raise_owner (x : Nat) : (s.raise k w a).owner x = s.owner x := rfl
@[simp] theorem raise_byteAt (x : Nat) : (s.raise k w a).byteAt x = s.byteAt x := rfl

/-! ### Owners and bytes under updates of other fields -/

/-- The owner of an address depends on the segments alone. -/
theorem owner_congr {s t : State} (h : t.segs = s.segs) (x : Nat) : t.owner x = s.owner x := by
  simp [State.owner, h]

/-- A byte depends on the segments and the memory alone. -/
theorem byteAt_congr {s t : State} (h : t.segs = s.segs) (h' : t.mem = s.mem) (x : Nat) : t.byteAt x = s.byteAt x := by
  simp [State.byteAt, owner_congr h, h']

@[simp] theorem writeReg_owner (x : Nat) : (s.writeReg i v).owner x = s.owner x := owner_congr (by simp) x
@[simp] theorem writeReg_byteAt (x : Nat) : (s.writeReg i v).byteAt x = s.byteAt x := byteAt_congr (by simp) (by simp) x

/-- The next sequential address is never the instruction's own (spec/40_dispatch.md R100). -/
theorem seqPc_ne_pc : s.pc + 4 ≠ s.pc := by
  intro h
  have := congrArg BitVec.toNat h
  simp [BitVec.toNat_add] at this
  omega

/-- `x2` is the stack pointer (spec/70_reset_and_hazards.md R217). -/
@[simp] theorem stackPointer_eq : stackPointer = 2 := rfl

end Sys2Proof.Machine
end

