-- ==== Sys2Proof/Laws/Port.lean ====
section
/-! SUPPORT. Owners, the checks of the memory port, and everything a read, a write, a load or a store can answer. -/

namespace Sys2Proof.Machine

variable (s : State)

/-! ### Owners (spec/20_memory.md R43, R44) -/

theorem Segment.covers_iff (k : Segment) (a : Nat) : k.covers a = true ↔ k.base ≤ a ∧ a < k.base + k.size := by
  simp [Segment.covers]

/-- An owner is a segment that covers the address. -/
theorem owner_covers {a : Nat} {k : Segment} (h : s.owner a = some k) :
    k ∈ s.segs ∧ k.base ≤ a ∧ a < k.base + k.size := by
  unfold State.owner at h
  exact ⟨List.mem_of_find?_eq_some h, (Segment.covers_iff k a).mp (by simpa using List.find?_some h)⟩

/-- There is no owner just when no segment covers the address. -/
theorem owner_none_iff (a : Nat) : s.owner a = none ↔ ∀ k ∈ s.segs, ¬(k.base ≤ a ∧ a < k.base + k.size) := by
  simp only [State.owner, List.find?_eq_none, Segment.covers_iff]

/-- Two segments of a well-formed list that cover one address are the same. -/
theorem segsWf_unique {segs : List Segment} (h : segsWf segs = true) {k l : Segment} {a : Nat} (hk : k ∈ segs)
    (hl : l ∈ segs) (hka : k.base ≤ a ∧ a < k.base + k.size) (hla : l.base ≤ a ∧ a < l.base + l.size) : k = l := by
  induction segs with
  | nil => cases hk
  | cons m rest ih =>
    simp only [segsWf, Bool.and_eq_true, List.all_eq_true, decide_eq_true_eq, Bool.not_eq_true',
      Segment.overlaps, decide_eq_false_iff_not] at h
    obtain ⟨⟨_, hd⟩, hrest⟩ := h
    rcases List.mem_cons.mp hk with hkm | hk <;> rcases List.mem_cons.mp hl with hlm | hl
    · rw [hkm, hlm]
    · have := hd l hl; subst hkm; omega
    · have := hd k hk; subst hlm; omega
    · exact ih hrest hk hl

/-- Every segment of a well-formed list lies in the address space. -/
theorem segsWf_bound {segs : List Segment} (h : segsWf segs = true) {k : Segment} (hk : k ∈ segs) :
    k.base + k.size ≤ Config.addressSpaceSize := by
  induction segs with
  | nil => cases hk
  | cons m rest ih =>
    simp only [segsWf, Bool.and_eq_true, decide_eq_true_eq] at h
    rcases List.mem_cons.mp hk with rfl | hk
    · exact h.1.1
    · exact ih h.2 hk

/-- With segments that do not overlap, the owner of an address is the one segment that covers it (R43). -/
theorem owner_eq_of_covers {a : Nat} {k : Segment} (h : segsWf s.segs = true) (hk : k ∈ s.segs)
    (hka : k.base ≤ a ∧ a < k.base + k.size) : s.owner a = some k := by
  cases ho : s.owner a with
  | none => exact absurd hka ((owner_none_iff s a).mp ho k hk)
  | some l =>
    obtain ⟨hl, hla⟩ := owner_covers s ho
    rw [segsWf_unique h hk hl hka hla]

/-! ### The checks (spec/20_memory.md R45, R46, R48) -/

/-- The address is a multiple of the width, and all the bytes lie in the segment that owns the first. -/
def State.accessOk (s : State) (a : Word) (n : Width) : Prop :=
  a.toNat % n.bytes = 0 ∧ ∃ k, s.owner a.toNat = some k ∧ a.toNat + n.bytes ≤ k.base + k.size

theorem Width.bytes_pos (n : Width) : 0 < n.bytes := by cases n <;> decide

/-- Every access gets exactly one of the three answers, the alignment first. -/
theorem accessProblem_cases (a : Word) (n : Width) :
    (a.toNat % n.bytes ≠ 0 ∧ s.accessProblem a n = some .misaligned) ∨
    (a.toNat % n.bytes = 0 ∧ ¬s.accessOk a n ∧ s.accessProblem a n = some .outside) ∨
    (s.accessOk a n ∧ s.accessProblem a n = none) := by
  unfold State.accessProblem State.accessOk
  by_cases h : a.toNat % n.bytes = 0
  · right
    cases ho : s.owner a.toNat with
    | none => left; simp [h]
    | some k =>
      by_cases hk : a.toNat + n.bytes ≤ k.base + k.size
      · right; simp [h, hk]
      · left; simp [h, hk]
  · left; simp [h]

theorem accessProblem_none_iff (a : Word) (n : Width) : s.accessProblem a n = none ↔ s.accessOk a n := by
  rcases accessProblem_cases s a n with ⟨h, hp⟩ | ⟨_, h, hp⟩ | ⟨h, hp⟩
  · have : ¬s.accessOk a n := fun e => h e.1
    simp [hp, this]
  · simp [hp, h]
  · simp [hp, h]

theorem accessProblem_misaligned_iff (a : Word) (n : Width) :
    s.accessProblem a n = some .misaligned ↔ a.toNat % n.bytes ≠ 0 := by
  rcases accessProblem_cases s a n with ⟨h, hp⟩ | ⟨h, _, hp⟩ | ⟨h, hp⟩
  · simp [h, hp]
  · simp [h, hp]
  · simp [h.1, hp]

theorem accessProblem_outside_iff (a : Word) (n : Width) :
    s.accessProblem a n = some .outside ↔ a.toNat % n.bytes = 0 ∧ ¬s.accessOk a n := by
  rcases accessProblem_cases s a n with ⟨h, hp⟩ | ⟨h, h', hp⟩ | ⟨h, hp⟩
  · simp [h, hp]
  · simp [h, h', hp]
  · simp [h, hp]

/-- The checks depend on the segments alone. -/
theorem accessProblem_congr {s t : State} (h : t.segs = s.segs) (a : Word) (n : Width) :
    t.accessProblem a n = s.accessProblem a n := by
  simp [State.accessProblem, owner_congr h]

/-- Every byte of an access that passes the checks is mapped. -/
theorem owner_of_accessOk {a : Word} {n : Width} (h : s.accessOk a n) (j : Nat) (hj : j < n.bytes) :
    (s.owner (a.toNat + j)).isSome = true := by
  obtain ⟨_, k, ho, hk⟩ := h
  obtain ⟨hm, hb⟩ := owner_covers s ho
  cases ho' : s.owner (a.toNat + j) with
  | some l => rfl
  | none => exact absurd ⟨by omega, by omega⟩ ((owner_none_iff s _).mp ho' k hm)

/-- A mapped address holds the byte memory lists. -/
theorem byteAt_of_owner {a : Nat} (h : (s.owner a).isSome = true) : s.byteAt a = some (s.mem.read a) := by
  cases ho : s.owner a with
  | none => simp [ho] at h
  | some k => simp [State.byteAt, ho]

/-- "An aligned access never crosses `2^32`" (R45). -/
theorem accessOk_bound {a : Word} {n : Width} (h : s.accessOk a n) :
    a.toNat + n.bytes ≤ Config.addressSpaceSize := by
  have hm := h.1
  have hl := a.isLt
  unfold Config.addressSpaceSize
  cases n <;> simp only [Width.bytes] at hm ⊢ <;> omega

/-! ### Loads and stores -/

/-- A load that fails a check raises one fault and does nothing else. -/
theorem loadInto_problem {w : Word} {n : Width} {ext : Word → Word} {rd : RegIdx} {ea : Word} {p : AccessProblem}
    (h : s.accessProblem ea n = some p) :
    loadInto w n ext rd ea s = .next (s.raise p.loadFault (some w) (some ea)) := by
  simp [loadInto, State.memRead, h]

/-- A load that passes writes its register and goes on. -/
theorem loadInto_ok {w : Word} {n : Width} {ext : Word → Word} {rd : RegIdx} {ea : Word}
    (h : s.accessProblem ea n = none) :
    loadInto w n ext rd ea s = .next ((s.writeReg rd (ext (s.mem.readLE ea.toNat n.bytes))).complete s.seqPc) := by
  simp [loadInto, State.memRead, h, retire]

/-- A store that fails a check raises one fault and does nothing else. -/
theorem storeAt_problem {w : Word} {n : Width} {ea v : Word} {p : AccessProblem} (h : s.accessProblem ea n = some p) :
    storeAt w n ea v s = .next (s.raise p.storeFault (some w) (some ea)) := by
  simp [storeAt, State.memWrite, h]

/-- A store that passes writes its bytes and goes on. -/
theorem storeAt_ok {w : Word} {n : Width} {ea v : Word} (h : s.accessProblem ea n = none) :
    storeAt w n ea v s =
      .next (({ s with mem := s.mem.writeLE ea.toNat n.bytes v } : State).complete s.seqPc) := by
  simp [storeAt, State.memWrite, h]

/-! ### A byte after a store -/

/-- Outside the stored bytes every address holds what it held. -/
theorem byteAt_store_outside (a n : Nat) (v : Word) (x : Nat) (h : x < a ∨ a + n ≤ x) :
    ({ s with mem := s.mem.writeLE a n v } : State).byteAt x = s.byteAt x := by
  have : (s.mem.writeLE a n v).read x = s.mem.read x :=
    Memory.read_writeBytes_outside _ _ _ _ (by simpa using h)
  simp only [State.byteAt, this]
  rfl

/-- Byte `j` of the range is bits `8j+7 : 8j` of the value stored (spec/20_memory.md R46). -/
theorem read_store_inside (m : Memory) (a n : Nat) (v : Word) (j : Nat) (hj : j < n)
    (ha : a + n ≤ Config.addressSpaceSize) (h : m.wf = true) :
    (m.writeLE a n v).read (a + j) = v.extractLsb' (8 * j) 8 := by
  rw [Memory.writeLE, Memory.read_writeBytes_inside _ _ _ _ (by simpa using hj) (by simpa using ha) h,
    bytesLE_getElem n v j hj]

end Sys2Proof.Machine
end

