-- ==== Sys2Proof/Laws/Exec.lean ====
section
/-! SUPPORT. Everything an instruction can do, and everything a step can do, said once. -/

namespace Sys2Proof.Machine

variable (s : State)

/-! ### Instructions -/

/-- What an instruction with word `w` can do to `s`: a data fault with nothing else changed; or one register written (`x0`
for none) and some next `pc`; or a store that passed its checks. -/
def Effect (w : Word) (s t : State) : Prop :=
  (∃ ea n p, s.accessProblem ea n = some p ∧
    (t = s.raise p.loadFault (some w) (some ea) ∨ t = s.raise p.storeFault (some w) (some ea))) ∨
  (∃ rd v n, t = (s.writeReg rd v).complete n) ∨
  (∃ ea n v, s.accessProblem ea n = none ∧
    t = ({ s with mem := s.mem.writeLE ea.toNat (Width.bytes n) v } : State).complete s.seqPc)

theorem loadInto_effect (w : Word) (n : Width) (ext : Word → Word) (rd : RegIdx) (ea : Word) :
    ∃ t, loadInto w n ext rd ea s = .next t ∧ Effect w s t := by
  cases h : s.accessProblem ea n with
  | some p => exact ⟨_, loadInto_problem s h, Or.inl ⟨ea, n, p, h, Or.inl rfl⟩⟩
  | none => exact ⟨_, loadInto_ok s h, Or.inr (Or.inl ⟨_, _, _, rfl⟩)⟩

theorem storeAt_effect (w : Word) (n : Width) (ea v : Word) : ∃ t, storeAt w n ea v s = .next t ∧ Effect w s t := by
  cases h : s.accessProblem ea n with
  | some p => exact ⟨_, storeAt_problem s h, Or.inl ⟨ea, n, p, h, Or.inr rfl⟩⟩
  | none => exact ⟨_, storeAt_ok s h, Or.inr (Or.inr ⟨ea, n, v, h, rfl⟩)⟩

theorem retire_effect (w : Word) (rd : RegIdx) (v : Word) : ∃ t, retire rd v s = .next t ∧ Effect w s t :=
  ⟨_, rfl, Or.inr (Or.inl ⟨_, _, _, rfl⟩)⟩

theorem branchTo_effect (w : Word) (c : Bool) (n : Word) : ∃ t, branchTo c n s = .next t ∧ Effect w s t :=
  ⟨_, rfl, Or.inr (Or.inl ⟨0, 0, _, rfl⟩)⟩

/-- An instruction always answers a next state, by one of the effects. -/
theorem exec_cases (i : Instr) : ∃ t, exec i s = .next t ∧ Effect (encode i) s t := by
  cases i with
  | lb rd rs1 imm => exact loadInto_effect ..
  | lh rd rs1 imm => exact loadInto_effect ..
  | lw rd rs1 imm => exact loadInto_effect ..
  | lbu rd rs1 imm => exact loadInto_effect ..
  | lhu rd rs1 imm => exact loadInto_effect ..
  | sb rs1 rs2 imm => exact storeAt_effect ..
  | sh rs1 rs2 imm => exact storeAt_effect ..
  | sw rs1 rs2 imm => exact storeAt_effect ..
  | addi rd rs1 imm => exact retire_effect ..
  | slli rd rs1 shamt ignored => exact retire_effect ..
  | add rd rs1 rs2 => exact retire_effect ..
  | sub rd rs1 rs2 f7 => exact retire_effect ..
  | sll rd rs1 rs2 f7 => exact retire_effect ..
  | jal rd imm => exact ⟨_, rfl, Or.inr (Or.inl ⟨_, _, _, rfl⟩)⟩
  | beq rs1 rs2 imm => exact branchTo_effect ..
  | bne rs1 rs2 imm => exact branchTo_effect ..
  | blt rs1 rs2 imm => exact branchTo_effect ..
  | bge rs1 rs2 imm => exact branchTo_effect ..
  | lui rd imm => exact retire_effect ..

/-- An effect that an instruction is known to have is the one of its next state. -/
theorem exec_effect {i : Instr} {t : State} (h : exec i s = .next t) : Effect (encode i) s t := by
  obtain ⟨u, hu, he⟩ := exec_cases s i
  have : u = t := by rw [h] at hu; exact (Host.Outcome.next.inj hu).symm
  exact this ▸ he

/-! ### Fetch -/

/-- A fetch that fails a check raises the fetch fault of that check. -/
theorem fetch_problem {p : AccessProblem} (h : s.accessProblem s.pc .word = some p) : s.fetch = .error p.fetchFault := by
  simp [State.fetch, h]

/-- A fetch that passes reads the four bytes at `pc`, the lowest address least significant. -/
theorem fetch_ok (h : s.accessProblem s.pc .word = none) :
    s.fetch = .ok (wordLE (s.mem.read s.pc.toNat) (s.mem.read (s.pc.toNat + 1)) (s.mem.read (s.pc.toNat + 2))
      (s.mem.read (s.pc.toNat + 3))) := by
  simp [State.fetch, h, Config.instrBytes, Memory.readLE_four]

/-! ### Steps -/

/-- A step that answers a next state was taken from Running, and fetched or decoded with a fault, or ran an instruction. -/
theorem step_cases {t : State} (h : step s = .next t) :
    s.status = .running ∧
      ((∃ k, s.fetch = .error k ∧ t = s.raise k none (some s.pc)) ∨
        (∃ w e, s.fetch = .ok w ∧ decode w = .error e ∧ t = s.raise .illegalInstruction (some w) none) ∨
        (∃ w i, s.fetch = .ok w ∧ decode w = .ok i ∧ exec i s = .next t)) := by
  unfold step State.fetchDecode at h
  cases hs : s.status with
  | halted => simp [hs] at h
  | faulted => simp [hs] at h
  | running =>
    refine ⟨rfl, ?_⟩
    cases hf : s.fetch with
    | error k => left; refine ⟨k, rfl, ?_⟩; simpa [hs, hf] using h.symm
    | ok w =>
      right
      cases hd : decode w with
      | error e => left; refine ⟨w, e, rfl, hd, ?_⟩; simpa [hs, hf, hd] using h.symm
      | ok i => right; refine ⟨w, i, rfl, hd, ?_⟩; simpa [hs, hf, hd] using h

/-- A running engine that fetches a word that decodes runs the instruction. -/
theorem step_eq_exec {w : Word} {i : Instr} (hs : s.status = .running) (hf : s.fetch = .ok w) (hd : decode w = .ok i) :
    step s = exec i s := by
  unfold step State.fetchDecode
  rw [hs, hf]
  simp only [hd]

/-- A running engine always answers a next state. -/
theorem step_running (hs : s.status = .running) : ∃ t, step s = .next t := by
  cases hf : s.fetch with
  | error k => exact ⟨s.raise k none (some s.pc), by simp [step, State.fetchDecode, hs, hf]⟩
  | ok w =>
    cases hd : decode w with
    | error e => exact ⟨s.raise .illegalInstruction (some w) none, by simp [step, State.fetchDecode, hs, hf, hd]⟩
    | ok i =>
      obtain ⟨t, ht, _⟩ := exec_cases s i
      exact ⟨t, (step_eq_exec s hs hf hd).trans ht⟩

/-- `raise` is the fault the rules describe (spec/60_exceptions.md R192). -/
theorem raise_eq_faultedWith (k : FaultKind) (w a : Option Word) : s.raise k w a = faultedWith k w a s := rfl

end Sys2Proof.Machine
end

