-- ==== Sys2Proof/Laws/Launch.lean ====
section
/-! SUPPORT. The launch: the fields of the state it sets up, its checks, and the canonical form of the memory it fills. -/

namespace Sys2Proof.Machine

/-! ### Reset -/

/-- The memory of the reset state is canonical. -/
theorem reset_memory_wf : Memory.wf State.reset.mem = true := rfl

theorem reset_readReg (r : RegIdx) : State.reset.readReg r = 0 := readReg_replicate_zero _ _ rfl

/-! ### The state a launch sets up -/

variable (img : LaunchImage)

@[simp] theorem setup_pc : img.setup.pc = img.entry := by simp [LaunchImage.setup]
@[simp] theorem setup_segs : img.setup.segs = img.ranges := by simp [LaunchImage.setup]
@[simp] theorem setup_mem : img.setup.mem = imageMemory img.segments := by simp [LaunchImage.setup]
@[simp] theorem setup_status : img.setup.status = .running := by simp [LaunchImage.setup, State.reset]
@[simp] theorem setup_fault : img.setup.fault = none := by simp [LaunchImage.setup, State.reset]
@[simp] theorem setup_icount : img.setup.icount = 0 := by simp [LaunchImage.setup, State.reset]

/-- An accepted launch passed every check and gives the state set up. -/
theorem launch_ok_iff (s : State) : launch img = .ok s ↔ img.problem = none ∧ img.setup = s := by
  unfold launch
  cases h : img.problem <;> simp

/-- What the checks of an accepted image say (spec/70_reset_and_hazards.md R215). -/
theorem problem_none_iff : img.problem = none ↔
    (∀ g ∈ img.segments, g.filebytes.length ≤ g.memsz) ∧
    (∀ g ∈ img.segments, g.vaddr + g.memsz ≤ Config.addressSpaceSize) ∧ anyOverlap img.ranges = false := by
  unfold LaunchImage.problem
  by_cases h1 : ∃ g ∈ img.segments, g.memsz < g.filebytes.length
  · have h1' : ¬∀ g ∈ img.segments, g.filebytes.length ≤ g.memsz := by
      obtain ⟨g, hg, h⟩ := h1; exact fun all => absurd (all g hg) (by omega)
    simp [h1, h1']
  · have h1' : ∀ g ∈ img.segments, g.filebytes.length ≤ g.memsz := fun g hg => by
      by_contra h; exact h1 ⟨g, hg, by omega⟩
    by_cases h2 : ∃ g ∈ img.segments, Config.addressSpaceSize < g.vaddr + g.memsz
    · have h2' : ¬∀ g ∈ img.segments, g.vaddr + g.memsz ≤ Config.addressSpaceSize := by
        obtain ⟨g, hg, h⟩ := h2; exact fun all => absurd (all g hg) (by omega)
      simp [h1, h2, h2']
    · have h2' : ∀ g ∈ img.segments, g.vaddr + g.memsz ≤ Config.addressSpaceSize := fun g hg => by
        by_contra h; exact h2 ⟨g, hg, by omega⟩
      by_cases h3 : anyOverlap img.ranges = true
      · simp [h1, h2, h3]
      · simp [h1, h2, h3]; exact ⟨h1', h2'⟩

/-- Segments within the address space that do not overlap are well-formed (spec/20_memory.md R43). -/
theorem segsWf_of_checks {segs : List Segment} (hb : ∀ k ∈ segs, k.base + k.size ≤ Config.addressSpaceSize)
    (ho : anyOverlap segs = false) : segsWf segs = true := by
  induction segs with
  | nil => rfl
  | cons k rest ih =>
    simp only [anyOverlap, Bool.or_eq_false_iff, List.any_eq_false] at ho
    simp only [segsWf, Bool.and_eq_true, decide_eq_true_eq, List.all_eq_true, Bool.not_eq_true']
    exact ⟨⟨hb k (by simp), fun l hl => by simpa using ho.1 l hl⟩, ih (fun l hl => hb l (by simp [hl])) ho.2⟩

/-! ### The memory an image fills -/

/-- Filling memory from an image that passes its checks keeps the canonical form. -/
theorem imageMemory_wf {gs : List LaunchSegment} (hf : ∀ g ∈ gs, g.filebytes.length ≤ g.memsz)
    (hb : ∀ g ∈ gs, g.vaddr + g.memsz ≤ Config.addressSpaceSize) : Memory.wf (imageMemory gs) = true := by
  induction gs with
  | nil => rfl
  | cons g rest ih =>
    have h1 := hf g (by simp)
    have h2 := hb g (by simp)
    exact Memory.wf_writeBytes _ _ _ (by omega)
      (ih (fun g hg => hf g (by simp [hg])) (fun g hg => hb g (by simp [hg])))

/-- Every address an image lists is in the file bytes of one of its segments. -/
theorem mem_imageMemory {gs : List LaunchSegment} {c : Host.Cell} (h : c ∈ imageMemory gs) :
    ∃ g ∈ gs, g.vaddr ≤ c.1 ∧ c.1 < g.vaddr + g.filebytes.length := by
  induction gs with
  | nil => cases h
  | cons g rest ih =>
    rcases Memory.mem_writeBytes _ _ _ _ h with h | h
    · exact ⟨g, by simp, h⟩
    · obtain ⟨g', hg', h'⟩ := ih h
      exact ⟨g', by simp [hg'], h'⟩

end Sys2Proof.Machine
end

