-- ==== Sys2Proof/Laws/PerInstr.lean ====
section
/-! SUPPORT. Families of statements about every instruction as syntax, one lemma per constructor. -/

namespace Sys2Proof.Laws

/-- The opcode class of an instruction (spec/30_encoding.md R75, R76). -/
def classOf (i : Instr) : OpClass :=
  match i with
  | .lb _ _ _ => .load
  | .lh _ _ _ => .load
  | .lw _ _ _ => .load
  | .lbu _ _ _ => .load
  | .lhu _ _ _ => .load
  | .sb _ _ _ => .store
  | .sh _ _ _ => .store
  | .sw _ _ _ => .store
  | .addi _ _ _ => .arithImm
  | .slli _ _ _ _ => .arithImm
  | .add _ _ _ => .arithReg
  | .sub _ _ _ _ => .arithReg
  | .sll _ _ _ _ => .arithReg
  | .jal _ _ => .jal
  | .beq _ _ _ => .branch
  | .bne _ _ _ => .branch
  | .blt _ _ _ => .branch
  | .bge _ _ _ => .branch
  | .lui _ _ => .lui

/-- The dispatch table finds an instruction's class from its word (spec/30_encoding.md R75, R76). -/
def OpcodeOfEncode.Statement (i : Instr) : Prop := opClass? (opcode (encode i)) = some (classOf i)

theorem OpcodeOfEncode.lb (rd rs1 : RegIdx) (imm : BitVec 12) : OpcodeOfEncode.Statement (.lb rd rs1 imm) := by
  simp [OpcodeOfEncode.Statement, encode, classOf]; decide
theorem OpcodeOfEncode.lh (rd rs1 : RegIdx) (imm : BitVec 12) : OpcodeOfEncode.Statement (.lh rd rs1 imm) := by
  simp [OpcodeOfEncode.Statement, encode, classOf]; decide
theorem OpcodeOfEncode.lw (rd rs1 : RegIdx) (imm : BitVec 12) : OpcodeOfEncode.Statement (.lw rd rs1 imm) := by
  simp [OpcodeOfEncode.Statement, encode, classOf]; decide
theorem OpcodeOfEncode.lbu (rd rs1 : RegIdx) (imm : BitVec 12) : OpcodeOfEncode.Statement (.lbu rd rs1 imm) := by
  simp [OpcodeOfEncode.Statement, encode, classOf]; decide
theorem OpcodeOfEncode.lhu (rd rs1 : RegIdx) (imm : BitVec 12) : OpcodeOfEncode.Statement (.lhu rd rs1 imm) := by
  simp [OpcodeOfEncode.Statement, encode, classOf]; decide
theorem OpcodeOfEncode.sb (rs1 rs2 : RegIdx) (imm : BitVec 12) : OpcodeOfEncode.Statement (.sb rs1 rs2 imm) := by
  simp [OpcodeOfEncode.Statement, encode, classOf]; decide
theorem OpcodeOfEncode.sh (rs1 rs2 : RegIdx) (imm : BitVec 12) : OpcodeOfEncode.Statement (.sh rs1 rs2 imm) := by
  simp [OpcodeOfEncode.Statement, encode, classOf]; decide
theorem OpcodeOfEncode.sw (rs1 rs2 : RegIdx) (imm : BitVec 12) : OpcodeOfEncode.Statement (.sw rs1 rs2 imm) := by
  simp [OpcodeOfEncode.Statement, encode, classOf]; decide
theorem OpcodeOfEncode.addi (rd rs1 : RegIdx) (imm : BitVec 12) : OpcodeOfEncode.Statement (.addi rd rs1 imm) := by
  simp [OpcodeOfEncode.Statement, encode, classOf]; decide
theorem OpcodeOfEncode.slli (rd rs1 : RegIdx) (shamt : BitVec 5) (ignored : BitVec 7) :
    OpcodeOfEncode.Statement (.slli rd rs1 shamt ignored) := by
  simp [OpcodeOfEncode.Statement, encode, classOf]; decide
theorem OpcodeOfEncode.add (rd rs1 rs2 : RegIdx) : OpcodeOfEncode.Statement (.add rd rs1 rs2) := by
  simp [OpcodeOfEncode.Statement, encode, classOf]; decide
theorem OpcodeOfEncode.sub (rd rs1 rs2 : RegIdx) (f7 : BitVec 7) : OpcodeOfEncode.Statement (.sub rd rs1 rs2 f7) := by
  simp [OpcodeOfEncode.Statement, encode, classOf]; decide
theorem OpcodeOfEncode.sll (rd rs1 rs2 : RegIdx) (f7 : BitVec 7) : OpcodeOfEncode.Statement (.sll rd rs1 rs2 f7) := by
  simp [OpcodeOfEncode.Statement, encode, classOf]; decide
theorem OpcodeOfEncode.jal (rd : RegIdx) (imm : BitVec 21) : OpcodeOfEncode.Statement (.jal rd imm) := by
  simp [OpcodeOfEncode.Statement, encode, classOf]; decide
theorem OpcodeOfEncode.beq (rs1 rs2 : RegIdx) (imm : BitVec 13) : OpcodeOfEncode.Statement (.beq rs1 rs2 imm) := by
  simp [OpcodeOfEncode.Statement, encode, classOf]; decide
theorem OpcodeOfEncode.bne (rs1 rs2 : RegIdx) (imm : BitVec 13) : OpcodeOfEncode.Statement (.bne rs1 rs2 imm) := by
  simp [OpcodeOfEncode.Statement, encode, classOf]; decide
theorem OpcodeOfEncode.blt (rs1 rs2 : RegIdx) (imm : BitVec 13) : OpcodeOfEncode.Statement (.blt rs1 rs2 imm) := by
  simp [OpcodeOfEncode.Statement, encode, classOf]; decide
theorem OpcodeOfEncode.bge (rs1 rs2 : RegIdx) (imm : BitVec 13) : OpcodeOfEncode.Statement (.bge rs1 rs2 imm) := by
  simp [OpcodeOfEncode.Statement, encode, classOf]; decide
theorem OpcodeOfEncode.lui (rd : RegIdx) (imm : BitVec 20) : OpcodeOfEncode.Statement (.lui rd imm) := by
  simp [OpcodeOfEncode.Statement, encode, classOf]; decide

end Sys2Proof.Laws
end

