-- ==== Sys2Proof/Tests/Slice0.lean ====
section
/-! SUPPORT. Tests. Every expected value is the spec's, from spec/95_test_vectors.md or from the example of the rule named,
and none is the model's own answer. The last part shows, for each obligation with premises, a state and operands that
meet them. -/

namespace Sys2Proof.Tests

open Sys2Proof Sys2Proof.Machine

/-! ### Well-formedness: an ill-formed term for each check -/

theorem test_wf_sub_funct7_zero : wellFormed (.sub 3 1 2 0) = false := by decide
theorem test_wf_jal_odd : wellFormed (.jal 1 1) = false := by decide
theorem test_wf_beq_odd : wellFormed (.beq 1 2 0x1FFF) = false := by decide
theorem test_wf_bne_odd : wellFormed (.bne 1 2 9) = false := by decide
theorem test_wf_blt_odd : wellFormed (.blt 1 2 1) = false := by decide
theorem test_wf_bge_odd : wellFormed (.bge 1 2 3) = false := by decide

/-! ### Decoding: a word written out for each constructor (the examples of R111 to R170) -/

theorem test_decode_lb : decode 0b000000000000_00001_000_00011_0000011 = .ok (.lb 3 1 0) := by decide
theorem test_decode_lh : decode 0b000000000001_00001_001_00011_0000011 = .ok (.lh 3 1 1) := by decide
theorem test_decode_lw : decode 0b111111111100_00001_010_00011_0000011 = .ok (.lw 3 1 0xFFC) := by decide
theorem test_decode_lbu : decode 0b000000000000_00001_100_00011_0000011 = .ok (.lbu 3 1 0) := by decide
theorem test_decode_lhu : decode 0b000000000010_00001_101_00011_0000011 = .ok (.lhu 3 1 2) := by decide
theorem test_decode_sb : decode 0b1111111_00010_00001_000_11111_0100011 = .ok (.sb 1 2 0xFFF) := by decide
theorem test_decode_sh : decode 0b0000000_00010_00001_001_00001_0100011 = .ok (.sh 1 2 1) := by decide
theorem test_decode_sw : decode 0b0111111_00010_00001_010_11111_0100011 = .ok (.sw 1 2 0x7FF) := by decide
theorem test_decode_addi : decode 0b111111111111_00010_000_00001_0010011 = .ok (.addi 1 2 0xFFF) := by decide
theorem test_decode_slli : decode 0b0100000_00011_00010_001_00001_0010011 = .ok (.slli 1 2 3 0b0100000) := by decide
theorem test_decode_add : decode 0b0000000_00010_00001_000_00011_0110011 = .ok (.add 3 1 2) := by decide
theorem test_decode_sub : decode 0b0000001_00010_00001_000_00011_0110011 = .ok (.sub 3 1 2 1) := by decide
theorem test_decode_sll : decode 0b0100000_00010_00001_001_00011_0110011 = .ok (.sll 3 1 2 0b0100000) := by decide
theorem test_decode_jal : decode 0b1_1111111110_1_11111111_00001_1101111 = .ok (.jal 1 0x1FFFFC) := by decide
theorem test_decode_beq : decode 0b0_111111_00010_00001_000_1111_1_1100011 = .ok (.beq 1 2 0xFFE) := by decide
theorem test_decode_bne : decode 0b1_111111_00010_00001_001_1100_1_1100011 = .ok (.bne 1 2 0x1FF8) := by decide
theorem test_decode_blt : decode 0b0_000000_00010_00001_100_0100_0_1100011 = .ok (.blt 1 2 8) := by decide
theorem test_decode_bge : decode 0b0_000000_00010_00001_101_0100_0_1100011 = .ok (.bge 1 2 8) := by decide
theorem test_decode_lui : decode 0b00010010001101000101_00001_0110111 = .ok (.lui 1 0x12345) := by decide

/-- A word decodes to no instruction. -/
def illegal (w : Word) : Bool := match decode w with | .ok _ => false | .error _ => true

/-- L2.1: opcodes with no entry, JALR's among them. -/
theorem test_illegal_opcodes :
    [0x00000000#32, 0xFFFFFFFF, 0x00008067, 0x00001097, 0x0FF0000F, 0x00000073, 0x00100073].all illegal = true := by
  decide

/-- L2.1: funct3 values with no case. -/
theorem test_illegal_funct3 :
    [0x0000B183#32, 0x0000E183, 0x0020B023, 0x00112093, 0x00114093, 0x0020F1B3, 0x4020D1B3, 0x0020A463, 0x0020E463,
      0x0020F463].all illegal = true := by decide

/-- L2.1: JAL has no funct3. -/
theorem test_decode_jal_no_funct3 : decode 0x0000706F = .ok (.jal 0 0x7000) := by decide

/-- R48: `6F 00 00 00` are the bytes of `0x0000006F`; the bytes after it are left over. -/
theorem test_decode_bytes : decodeBytes [0x6F, 0, 0, 0, 0x93] = .ok (.jal 0 0, [0x93]) := by decide
theorem test_decode_bytes_short : decodeBytes [0x6F, 0, 0] = .error .tooFewBytes := by decide
theorem test_decode_table_word : decodeTableWord 32 0x00500093 = some (.addi 1 0 5) := by decide

/-! ### Extension and immediates (L1.1, L1.2) -/

theorem test_sext :
    [sext 8 0x80, sext 8 0x12345680, sext 12 0x7FF, sext 13 0x1000, sext 16 0x8000, sext 20 0x80000, sext 21 0x100000] =
      [0xFFFFFF80, 0xFFFFFF80, 0x7FF, 0xFFFFF000, 0xFFFF8000, 0xFFF80000, 0xFFF00000] := by decide

/-- The five immediates of a word. -/
def immediates (w : Word) : List Word := [immI w, immS w, immB w, immU w, immJ w]

theorem test_imm_sign : immediates 0x80000000 = [0xFFFFF800, 0xFFFFF800, 0xFFFFF000, 0x80000000, 0xFFF00000] := by decide
theorem test_imm_30_25 : immediates 0x7E000000 = [0x7E0, 0x7E0, 0x7E0, 0x7E000000, 0x7E0] := by decide
theorem test_imm_11_8 : immediates 0x00000F00 = [0, 0x1E, 0x1E, 0, 0] := by decide
theorem test_imm_7 : immediates 0x00000080 = [0, 1, 0x800, 0, 0] := by decide
theorem test_imm_20 : immediates 0x00100000 = [1, 0, 0, 0x00100000, 0x800] := by decide
theorem test_imm_30_21 : immediates 0x7FE00000 = [0x7FE, 0x7E0, 0x7E0, 0x7FE00000, 0x7FE] := by decide
theorem test_imm_19_12 : immediates 0x000FF000 = [0, 0, 0, 0x000FF000, 0x000FF000] := by decide

/-! ### Single steps (L1.3, L1.7, L1.8, L2.2 to L2.9) -/

/-- The set-up of spec/95 section 0, for one step: `w` alone in its code segment at `pc`, the 16 bytes D from `0x11000`
starting with `d`, and `x1` and `x2` given. -/
def vectorAt (pc w x1 x2 : Word) (d : List Byte) : State where
  regs := ((Vector.replicate 32 0).set 1 x1).set 2 x2
  pc := pc
  segs := [⟨pc.toNat, 4⟩, ⟨0x11000, 16⟩]
  mem := (Memory.writeLE [] pc.toNat 4 w).writeBytes 0x11000 d
  status := .running
  fault := none
  icount := 0

/-- The set-up with the code at `0x10000` and D zero. -/
def vector (w x1 x2 : Word) : State := vectorAt 0x10000 w x1 x2 []

/-- The set-up with D as L2.4 gives it. -/
def vectorD (w x1 : Word) : State := vectorAt 0x10000 w x1 0 [0x80, 0xFF, 0x7F, 0x01]

/-- The state an outcome answers, if it is a next state. -/
def nextOf : Host.Outcome State Fault Refusal → Option State
  | .next t => some t
  | .fault _ => none
  | .refused _ => none

/-- `x[r]` and `pc` after one step. -/
def regAfter (r : RegIdx) (s : State) : Option (Word × Word) := (nextOf (step s)).map fun t => (t.readReg r, t.pc)

/-- `pc` and status after one step. -/
def pcAfter (s : State) : Option (Word × Status) := (nextOf (step s)).map fun t => (t.pc, t.status)

/-- The first four bytes of D after one step. -/
def dataAfter (s : State) : Option (List (Option Byte)) :=
  (nextOf (step s)).map fun t => [t.byteAt 0x11000, t.byteAt 0x11001, t.byteAt 0x11002, t.byteAt 0x11003]

/-- What the record says after one step that faults: kind, `pc`, word, `addr`, `icount`. -/
def faultAfter (s : State) : Option FaultRecord :=
  (nextOf (step s)).bind fun t => if t.status = .faulted then t.fault else none

theorem test_lb_sign : regAfter 3 (vectorD 0x00008183 0x11000) = some (0xFFFFFF80, 0x10004) := by decide
theorem test_lb_x0_faults : faultAfter (vectorD 0x00008003 0x20000) =
    some ⟨.loadAccessFault, 0x10000, some 0x00008003, some 0x20000, 0⟩ := by decide
theorem test_lbu_zero : regAfter 3 (vectorD 0x0000C183 0x11000) = some (0x80, 0x10004) := by decide
theorem test_lh_sign : regAfter 3 (vectorD 0x00009183 0x11000) = some (0xFFFFFF80, 0x10004) := by decide
theorem test_lh_misaligned_first : faultAfter (vectorD 0x00109183 0x20000) =
    some ⟨.loadMisaligned, 0x10000, some 0x00109183, some 0x20001, 0⟩ := by decide
theorem test_lhu_zero : regAfter 3 (vectorD 0x0000D183 0x11000) = some (0xFF80, 0x10004) := by decide
theorem test_lw_negative_offset : regAfter 3 (vectorD 0xFFC0A183 0x11004) = some (0x017FFF80, 0x10004) := by decide
theorem test_lw_own_base : regAfter 1 (vectorD 0x0000A083 0x11000) = some (0x017FFF80, 0x10004) := by decide

theorem test_sb : dataAfter (vector 0x00208023 0x11000 0x11223344) = some [some 0x44, some 0, some 0, some 0] := by decide
theorem test_sb_below_d : faultAfter (vector 0xFE208FA3 0x11000 0x11223344) =
    some ⟨.storeAccessFault, 0x10000, some 0xFE208FA3, some 0x10FFF, 0⟩ := by decide
theorem test_sh : dataAfter (vector 0x00209023 0x11000 0x11223344) = some [some 0x44, some 0x33, some 0, some 0] := by
  decide
theorem test_sw : dataAfter (vector 0xFE20AE23 0x11004 0x11223344) = some [some 0x44, some 0x33, some 0x22, some 0x11] := by
  decide
theorem test_sw_misaligned_first : faultAfter (vector 0x7E20AFA3 0x11000 0x11223344) =
    some ⟨.storeMisaligned, 0x10000, some 0x7E20AFA3, some 0x117FF, 0⟩ := by decide

theorem test_addi_wraps : regAfter 1 (vector 0x00110093 0 0xFFFFFFFF) = some (0, 0x10004) := by decide
theorem test_addi_minus : regAfter 1 (vector 0x80010093 0 0) = some (0xFFFFF800, 0x10004) := by decide
theorem test_slli_31 : regAfter 1 (vector 0x01F11093 0 0xFFFFFFFF) = some (0x80000000, 0x10004) := by decide
theorem test_slli_ignored_bits : regAfter 1 (vector 0x40311093 0 1) = some (8, 0x10004) := by decide
theorem test_add : regAfter 3 (vector 0x002081B3 7 5) = some (12, 0x10004) := by decide
theorem test_sub_funct7 : regAfter 3 (vector 0x022081B3 7 5) = some (2, 0x10004) := by decide
theorem test_sub_wraps : regAfter 3 (vector 0x402081B3 0 1) = some (0xFFFFFFFF, 0x10004) := by decide
theorem test_sll_33 : regAfter 3 (vector 0x002091B3 1 33) = some (2, 0x10004) := by decide
theorem test_sll_31 : regAfter 3 (vector 0x002091B3 3 0xFFFFFFFF) = some (0x80000000, 0x10004) := by decide
theorem test_lui : regAfter 1 (vector 0x123450B7 0 0) = some (0x12345000, 0x10004) := by decide
theorem test_lui_x0 : regAfter 0 (vector 0x00001037 0 0) = some (0, 0x10004) := by decide

theorem test_jal_links_own_pc : regAfter 4 (vectorAt 0x10018 0x0080026F 0 0 []) = some (0x10018, 0x10020) := by decide
theorem test_jal_halts : (nextOf (step (vector 0x000000EF 0 0))).map (fun t => (t.readReg 1, t.pc, t.status, t.icount)) =
    some (0x10000, 0x10000, .halted, 1) := by decide
theorem test_beq_taken : pcAfter (vectorAt 0x10008 0x00208463 5 5 []) = some (0x10010, .running) := by decide
theorem test_beq_zero_offset_not_taken : pcAfter (vector 0x00008063 1 0) = some (0x10004, .running) := by decide
theorem test_bne_taken_back : pcAfter (vectorAt 0x10008 0xFE209CE3 1 2 []) = some (0x10000, .running) := by decide
theorem test_bne_not_taken : pcAfter (vectorAt 0x10008 0x00209463 5 5 []) = some (0x1000C, .running) := by decide
theorem test_blt_signed : pcAfter (vectorAt 0x10008 0x0020C463 0xFFFFFFFF 1 []) = some (0x10010, .running) := by decide
theorem test_blt_not_taken : pcAfter (vectorAt 0x10008 0x0020C463 1 0xFFFFFFFF []) = some (0x1000C, .running) := by decide
theorem test_bge_unsigned : pcAfter (vectorAt 0x10008 0x0020D463 0xFFFFFFFF 1 []) = some (0x10010, .running) := by decide
theorem test_bge_not_taken : pcAfter (vectorAt 0x10008 0x0020D463 1 0xFFFFFFFF []) = some (0x1000C, .running) := by decide

theorem test_illegal_step : faultAfter (vector 0x00008067 0 0) =
    some ⟨.illegalInstruction, 0x10000, some 0x00008067, none, 0⟩ := by decide
theorem test_fetch_misaligned : faultAfter (vectorAt 0x10002 0x00100093 0 0 []) =
    some ⟨.fetchMisaligned, 0x10002, none, some 0x10002, 0⟩ := by decide
theorem test_fetch_unmapped : faultAfter { vector 0x00100093 0 0 with pc := 0x30000 } =
    some ⟨.fetchAccessFault, 0x30000, none, some 0x30000, 0⟩ := by decide
theorem test_no_step_after_halt : nextOf (step { vector 0x00100093 0 0 with status := .halted }) = none := by decide

/-- R35: no status while the run lasts, and the one it ended with after it. -/
theorem test_observe_status :
    (vector 0x0000006F 0 0).observeStatus = none ∧
    (nextOf (step (vector 0x0000006F 0 0))).map State.observeStatus = some (some .halted) := by decide

/-- Log entry 4: the word is fetched and run at the next step. -/
theorem test_with_fetch_word :
    regAfter 1 (State.reset.withFetchWord 32 0x00500093) = some (5, 4) := by decide

/-! ### Launch (L1.5) -/

/-- L1.5's file, with some of its fields as parameters. -/
def elf (magic0 cls machine phnum pType filesz memsz : Byte) : List Byte :=
  [magic0, 0x45, 0x4C, 0x46, cls, 1, 1, 0] ++ [0, 0, 0, 0, 0, 0, 0, 0] ++ [2, 0, machine, 0, 1, 0, 0, 0] ++
  [0, 0, 1, 0, 52, 0, 0, 0] ++ [0, 0, 0, 0, 0, 0, 0, 0] ++ [52, 0, 32, 0, phnum, 0, 0, 0] ++ [0, 0, 0, 0] ++
  [pType, 0, 0, 0, 84, 0, 0, 0] ++ [0, 0, 1, 0, 0, 0, 1, 0] ++ [filesz, 0, 0, 0, memsz, 0, 0, 0] ++
  [5, 0, 0, 0, 0, 16, 0, 0] ++ [0x93, 0, 0x50, 0, 0x6F, 0, 0, 0] ++ [0, 0, 0, 0]

/-- Why the launch of a file is refused. -/
def refusal (file : List Byte) : Option LaunchRefusal :=
  match launchElf file 0x12000 with
  | .ok _ => none
  | .error r => some r

/-- The file's launch succeeds, and its first two steps run `addi x1, x0, 5` and the halting JAL. -/
theorem test_launch_and_run :
    ((launchElf (elf 0x7F 1 0xF3 1 1 8 8) 0x12000).toOption.bind fun s =>
      (nextOf (step s)).bind fun t => (nextOf (step t)).map fun u =>
        (s.readReg 2, u.readReg 1, u.pc, u.icount, u.status)) = some (0x12000, 5, 0x10004, 2, .halted) := by decide

theorem test_launch_refusals :
    [refusal (elf 0 1 0xF3 1 1 8 8), refusal (elf 0x7F 1 3 1 1 8 8), refusal (elf 0x7F 2 0xF3 1 1 8 8),
      refusal (elf 0x7F 1 0xF3 0 1 8 8), refusal (elf 0x7F 1 0xF3 1 1 12 8)] =
    [some .badMagic, some .wrongMachine, some .wrongClass, some .noProgramHeaders, some .fileLargerThanSegment] := by
  decide

/-- Zero fill up to `p_memsz`. -/
theorem test_launch_zero_fill :
    (launchElf (elf 0x7F 1 0xF3 1 1 8 16) 0x12000).toOption.map (fun s => (s.byteAt 0x10007, s.byteAt 0x1000F, s.byteAt 0x10010)) =
      some (some 0, some 0, none) := by decide

theorem test_launch_overlap :
    (launch ⟨[⟨0x10000, 8, []⟩, ⟨0x10004, 8, []⟩], 0x10000, 0⟩).toOption = none := by decide

/-! ### A state and operands that meet the premises of each obligation

Each theorem names its obligation. Where a statement has several clauses, there is one part for each, at a boundary. -/

/-- All the bytes of an access are in the segment that owns the first. -/
theorem inside_of {s : State} {a n : Nat} (k : Segment) (h : s.owner a = some k) (hn : a + n ≤ k.base + k.size) :
    s.insideOwner a n := ⟨k, h, hn⟩

theorem not_inside_of_unmapped {s : State} {a n : Nat} (h : s.owner a = none) : ¬s.insideOwner a n := by
  rintro ⟨k, hk, -⟩
  rw [h] at hk
  cases hk

theorem not_inside_of_short {s : State} {a n : Nat} (k : Segment) (h : s.owner a = some k)
    (hn : k.base + k.size < a + n) : ¬s.insideOwner a n := by
  rintro ⟨l, hl, hb⟩
  rw [h] at hl
  cases hl
  omega

/-- L2.4's variant: D of 18 bytes, so that its last two are only a halfword. -/
def shortD (w x1 : Word) : State := { vector w x1 0 with segs := [⟨0x10000, 4⟩, ⟨0x11000, 18⟩] }

theorem test_witness_DecodeOfEncodeIsIdentity :
    WellFormed (.sub 31 31 31 127) ∧ WellFormed (.jal 31 0x100000) ∧ WellFormed (.bge 31 31 0x1000) := by decide

theorem test_witness_EncodeOfDecodeIsIdentity : ∃ w i, decode w = .ok i := ⟨0x40311093, .slli 1 2 3 0b0100000, by decide⟩

theorem test_witness_UnhandledWordsRaiseIllegalInstruction :
    (∃ (s : State) (w : Word), s.status = .running ∧ s.fetch = .ok w ∧ ¬handled w) ∧
    (∃ (s : State) (w : Word), s.status = .running ∧ s.fetch = .ok w ∧ handled w) :=
  ⟨⟨vector 0x0000B183 0 0, 0x0000B183, rfl, by decide, by simp [handled]⟩,
   ⟨vector 0x0000D183 0 0, 0x0000D183, rfl, by decide, by simp [handled]⟩⟩

/-- The words of every row, and for SUB the premise that funct7 is not zero: the decoding clause of each instruction's
statement. -/
theorem test_witness_rows :
    (0xFFF08183#32) &&& 0x0000707F = 0x00000003 ∧ (0xFFE09183#32) &&& 0x0000707F = 0x00001003 ∧
    (0xFFC0A183#32) &&& 0x0000707F = 0x00002003 ∧ (0xFFF0C183#32) &&& 0x0000707F = 0x00004003 ∧
    (0xFFE0D183#32) &&& 0x0000707F = 0x00005003 ∧ (0xFE208FA3#32) &&& 0x0000707F = 0x00000023 ∧
    (0x002090A3#32) &&& 0x0000707F = 0x00001023 ∧ (0xFE20AE23#32) &&& 0x0000707F = 0x00002023 ∧
    (0xFFF10093#32) &&& 0x0000707F = 0x00000013 ∧ (0x40311093#32) &&& 0x0000707F = 0x00001013 ∧
    (0x002081B3#32) &&& 0xFE00707F = 0x00000033 ∧
    ((0x022081B3#32) &&& 0x0000707F = 0x00000033 ∧ (0x022081B3#32).extractLsb' 25 7 ≠ 0) ∧
    (0x402091B3#32) &&& 0x0000707F = 0x00001033 ∧ (0x7FFFF0EF#32) &&& 0x0000007F = 0x0000006F ∧
    (0x7E208FE3#32) &&& 0x0000707F = 0x00000063 ∧ (0xFE209CE3#32) &&& 0x0000707F = 0x00001063 ∧
    (0x0020C463#32) &&& 0x0000707F = 0x00004063 ∧ (0x0020D463#32) &&& 0x0000707F = 0x00005063 ∧
    (0xFFFFF0B7#32) &&& 0x0000007F = 0x00000037 := by decide

/-- LB and LBU: one past D, and D's last byte. -/
theorem test_witness_byte_loads :
    (∃ s : State, ∃ ea : Word, ea = s.readReg 1 + (0 : BitVec 12).signExtend 32 ∧ ea.toNat % 1 = 0 ∧
      ¬s.insideOwner ea.toNat 1) ∧
    (∃ s : State, ∃ ea : Word, ea = s.readReg 1 + (0xFFF : BitVec 12).signExtend 32 ∧ ea.toNat % 1 = 0 ∧
      s.insideOwner ea.toNat 1) :=
  ⟨⟨vector 0 0x11010 0, 0x11010, by decide, by decide, not_inside_of_unmapped (by decide)⟩,
   ⟨vector 0 0x11010 0, 0x1100F, by decide, by decide, inside_of ⟨0x11000, 16⟩ (by decide) (by decide)⟩⟩

/-- LH, LHU and SH: an odd address, one past D, and D's last halfword. -/
theorem test_witness_halfwords :
    (∃ s : State, ∃ ea : Word, ea = s.readReg 1 + (1 : BitVec 12).signExtend 32 ∧ ea.toNat % 2 ≠ 0) ∧
    (∃ s : State, ∃ ea : Word, ea = s.readReg 1 + (0 : BitVec 12).signExtend 32 ∧ ea.toNat % 2 = 0 ∧
      ¬s.insideOwner ea.toNat 2) ∧
    (∃ s : State, ∃ ea : Word, ea = s.readReg 1 + (0xFFE : BitVec 12).signExtend 32 ∧ ea.toNat % 2 = 0 ∧
      s.insideOwner ea.toNat 2 ∧ Memory.wf s.mem = true) :=
  ⟨⟨vector 0 0x11000 0, 0x11001, by decide, by decide⟩,
   ⟨vector 0 0x11010 0, 0x11010, by decide, by decide, not_inside_of_unmapped (by decide)⟩,
   ⟨vector 0 0x11010 0, 0x1100E, by decide, by decide, inside_of ⟨0x11000, 16⟩ (by decide) (by decide), by decide⟩⟩

/-- LW and SW: an address that is `2 mod 4`, a word that runs past D's end, and D's last word. -/
theorem test_witness_words :
    (∃ s : State, ∃ ea : Word, ea = s.readReg 1 + (2 : BitVec 12).signExtend 32 ∧ ea.toNat % 4 ≠ 0) ∧
    (∃ s : State, ∃ ea : Word, ea = s.readReg 1 + (0 : BitVec 12).signExtend 32 ∧ ea.toNat % 4 = 0 ∧
      ¬s.insideOwner ea.toNat 4) ∧
    (∃ s : State, ∃ ea : Word, ea = s.readReg 1 + (0xFFC : BitVec 12).signExtend 32 ∧ ea.toNat % 4 = 0 ∧
      s.insideOwner ea.toNat 4 ∧ Memory.wf s.mem = true) :=
  ⟨⟨vector 0 0x11000 0, 0x11002, by decide, by decide⟩,
   ⟨shortD 0 0x11010, 0x11010, by decide, by decide, not_inside_of_short ⟨0x11000, 18⟩ (by decide) (by decide)⟩,
   ⟨vector 0 0x11010 0, 0x1100C, by decide, by decide, inside_of ⟨0x11000, 16⟩ (by decide) (by decide), by decide⟩⟩

/-- SB: one past D, and D's last byte. -/
theorem test_witness_SbStoresLowByte :
    (∃ s : State, ∃ ea : Word, ea = s.readReg 1 + (0 : BitVec 12).signExtend 32 ∧ ea.toNat % 1 = 0 ∧
      ¬s.insideOwner ea.toNat 1) ∧
    (∃ s : State, ∃ ea : Word, ea = s.readReg 1 + (0xFFF : BitVec 12).signExtend 32 ∧ ea.toNat % 1 = 0 ∧
      s.insideOwner ea.toNat 1 ∧ Memory.wf s.mem = true) :=
  ⟨⟨vector 0 0x11010 0, 0x11010, by decide, by decide, not_inside_of_unmapped (by decide)⟩,
   ⟨vector 0 0x11010 0, 0x1100F, by decide, by decide, inside_of ⟨0x11000, 16⟩ (by decide) (by decide), by decide⟩⟩

/-- BEQ, BNE, BLT and BGE: taken and not taken. -/
theorem test_witness_branches :
    (∃ a b : Word, a = b) ∧ (∃ a b : Word, ¬a = b) ∧ (∃ a b : Word, a ≠ b) ∧ (∃ a b : Word, ¬a ≠ b) ∧
    (∃ a b : Word, a.toInt < b.toInt) ∧ (∃ a b : Word, ¬a.toInt < b.toInt) ∧
    (∃ a b : Word, b.toNat ≤ a.toNat) ∧ (∃ a b : Word, ¬b.toNat ≤ a.toNat) :=
  ⟨⟨5, 5, rfl⟩, ⟨5, 6, by decide⟩, ⟨5, 6, by decide⟩, ⟨5, 5, by decide⟩, ⟨0x80000000, 0x7FFFFFFF, by decide⟩,
   ⟨1, 0xFFFFFFFF, by decide⟩, ⟨0xFFFFFFFF, 1, by decide⟩, ⟨1, 0xFFFFFFFF, by decide⟩⟩

/-- JAL and the branches: the target's fetch, where the target is not a multiple of 4 and where it is not mapped. -/
theorem test_witness_fetchFaultsAt :
    (∃ t : State, exec (.jal 5 2) (vector 0x002002EF 0 0) = .next t ∧ t.status = .running ∧ t.pc.toNat % 4 ≠ 0) ∧
    (∃ t : State, exec (.beq 1 2 0x1000) (vector 0x80208063 0 0) = .next t ∧ t.status = .running ∧
      t.pc.toNat % 4 = 0 ∧ ¬t.insideOwner t.pc.toNat 4) :=
  ⟨⟨_, rfl, by decide, by decide⟩, ⟨_, rfl, by decide, by decide, not_inside_of_unmapped (by decide)⟩⟩

theorem test_witness_StepRunsDecodedInstruction :
    ∃ s : State, ∃ i, s.status = .running ∧ s.pc.toNat % 4 = 0 ∧ s.insideOwner s.pc.toNat 4 ∧
      decode (BitVec.ofNat 32 (s.bytesNat s.pc.toNat 4)) = .ok i :=
  ⟨vector 0x00110093 0 0, .addi 1 2 1, rfl, by decide, inside_of ⟨0x10000, 4⟩ (by decide) (by decide), by decide⟩

/-- The three clauses of the fetch, each in a running state. The outside one is L2.9's code segment of 6 bytes. -/
theorem test_witness_FetchChecksThenReadsLittleEndian :
    (∃ s : State, s.status = .running ∧ s.pc.toNat % 4 ≠ 0) ∧
    (∃ s : State, s.status = .running ∧ s.pc.toNat % 4 = 0 ∧ ¬s.insideOwner s.pc.toNat 4) ∧
    (∃ s : State, s.status = .running ∧ s.pc.toNat % 4 = 0 ∧ s.insideOwner s.pc.toNat 4) :=
  ⟨⟨vectorAt 0x10002 0 0 0 [], rfl, by decide⟩,
   ⟨{ vector 0 0 0 with segs := [⟨0x10000, 6⟩], pc := 0x10004 }, rfl, by decide,
     not_inside_of_short ⟨0x10000, 6⟩ (by decide) (by decide)⟩,
   ⟨vector 0 0 0, rfl, by decide, inside_of ⟨0x10000, 4⟩ (by decide) (by decide)⟩⟩

/-- A step of each of the three ends: it goes on, it halts, it faults. -/
theorem test_witness_steps :
    (∃ s t, step s = .next t ∧ t.status = .running) ∧ (∃ s t, step s = .next t ∧ t.status = .halted) ∧
    (∃ s t, step s = .next t ∧ t.status = .faulted) :=
  ⟨⟨vector 0x00110093 0 0, _, rfl, by decide⟩, ⟨vector 0x0000006F 0 0, _, rfl, by decide⟩,
   ⟨vector 0x00008067 0 0, _, rfl, by decide⟩⟩

theorem test_witness_StepsCountCompletedInstructions :
    (∃ s t, step s = .next t ∧ t.status ≠ .faulted) ∧ (∃ s t, step s = .next t ∧ t.status = .faulted) :=
  ⟨⟨vector 0x0000006F 0 0, _, rfl, by decide⟩, ⟨vector 0x0000B183 0 0, _, rfl, by decide⟩⟩

/-- A step that halts, by a taken branch with offset zero, and one that does not. -/
theorem test_witness_OnlySelfTargetingTransfersHalt :
    (∃ s t, step s = .next t ∧ t.status = .halted) ∧ (∃ s t, step s = .next t ∧ t.status ≠ .halted) :=
  ⟨⟨vector 0x00000063 0 0, _, rfl, by decide⟩, ⟨vector 0x00008063 1 0, _, rfl, by decide⟩⟩

theorem test_witness_OnlyRunningEnginesStep :
    (∃ s : State, s.status ≠ .running) ∧ (∃ s : State, s.status = .running) :=
  ⟨⟨{ vector 0 0 0 with status := .halted }, by decide⟩, ⟨vector 0 0 0, rfl⟩⟩

/-- An instruction that is no transfer, and a branch that is not taken. -/
theorem test_witness_OnlyJalAndTakenBranchesLeaveSequence :
    (∃ s t w, step s = .next t ∧ t.status ≠ .faulted ∧ s.fetch = .ok w ∧ ¬w &&& 0x0000007F = 0x0000006F ∧
      ¬branchTaken w s) ∧
    (∃ s t w, step s = .next t ∧ t.status ≠ .faulted ∧ s.fetch = .ok w ∧ ¬w &&& 0x0000007F = 0x0000006F ∧
      w &&& 0x0000707F = 0x00005063 ∧ ¬branchTaken w s) :=
  ⟨⟨vector 0x123450B7 0 0, _, 0x123450B7, rfl, by decide, by decide, by decide, by unfold branchTaken; decide⟩,
   ⟨vector 0x0020D463 1 0xFFFFFFFF, _, 0x0020D463, rfl, by decide, by decide, by decide, by decide,
     by unfold branchTaken; decide⟩⟩

/-- A branch to a target that is `2 mod 4`. -/
theorem test_witness_CompletedStepsLeavePcEven :
    ∃ s t, step s = .next t ∧ t.status ≠ .faulted ∧ t.pc.toNat % 4 = 2 :=
  ⟨vectorAt 0x10008 0x7E208FE3 0 0 [], _, rfl, by decide, by decide⟩

/-- A load, and a store of one byte. -/
theorem test_witness_OnlyStoresChangeMemory :
    (∃ s t w, step s = .next t ∧ s.fetch = .ok w ∧ w.extractLsb' 0 7 ≠ 0b0100011) ∧
    (∃ s t w, step s = .next t ∧ s.fetch = .ok w ∧ w.extractLsb' 0 7 = 0b0100011 ∧ accessBytes w = 1) :=
  ⟨⟨vectorD 0x0000A183 0x11000, _, 0x0000A183, rfl, by decide, by decide⟩,
   ⟨vector 0xFE208FA3 0x11010 0x44, _, 0xFE208FA3, rfl, by decide, by decide, by decide⟩⟩

theorem test_witness_IcountIsInvisibleToInstructions : ∃ s t, step s = .next t := ⟨vector 0x002081B3 7 5, _, rfl⟩

theorem test_witness_FaultsArePrecise : ∃ s t, step s = .next t ∧ t.status = .faulted :=
  ⟨vector 0x0020A023 0x11010 0, _, rfl, by decide⟩

/-- A step that raises each of the seven kinds. -/
theorem test_witness_FaultRecordTellsTheFirstFault :
    [vectorAt 0x10002 0 0 0 [], { vector 0 0 0 with pc := 0x30000 }, vector 0 0 0, vectorD 0x0020A183 0x11000,
      vectorD 0x00008183 0x11010, vector 0x002090A3 0x11000 0, vector 0x0020A023 0x11010 0].map
      (fun s => (faultAfter s).map FaultRecord.kind) =
    [some .fetchMisaligned, some .fetchAccessFault, some .illegalInstruction, some .loadMisaligned,
      some .loadAccessFault, some .storeMisaligned, some .storeAccessFault] := by decide

theorem test_witness_RegisterZeroIsHardwired : (31 : RegIdx) ≠ 0 ∧ (30 : RegIdx) ≠ 31 := by decide

/-- The standard set-up satisfies the invariant. -/
theorem vector_inv : (vector 0x0020A023 0x11000 0x11223344).Inv where
  memory := by decide
  segments := by decide
  mapped := by decide
  zeroCell := by decide
  record := by decide
  precise := by intro f h; cases h

/-- The owner of D's last byte, and the address after it, which has none. -/
theorem test_witness_OwnerIsTheCoveringSegment :
    ∃ s : State, s.Inv ∧ s.owner 0x1100F = some ⟨0x11000, 16⟩ ∧ s.owner 0x11010 = none :=
  ⟨_, vector_inv, by decide, by decide⟩

theorem test_witness_MappedSetIsFixed : ∃ s t, Reaches s t ∧ s ≠ t :=
  ⟨vector 0x0020A023 0x11000 0x44, _, .step (.refl _) rfl, by decide⟩

/-- The three clauses of a data access, for a halfword and a word. A byte has no misaligned case. -/
theorem test_witness_MemReadChecksThenReadsLittleEndian :
    ∃ s : State, ((0x11001#32).toNat % Width.half.bytes ≠ 0 ∧ (0x11002#32).toNat % Width.word.bytes ≠ 0) ∧
      ((0x11010#32).toNat % Width.word.bytes = 0 ∧ ¬s.insideOwner (0x11010#32).toNat Width.word.bytes) ∧
      ((0x1100C#32).toNat % Width.word.bytes = 0 ∧ s.insideOwner (0x1100C#32).toNat Width.word.bytes) ∧
      ((0x1100F#32).toNat % Width.byte.bytes = 0 ∧ s.insideOwner (0x1100F#32).toNat Width.byte.bytes) :=
  ⟨vector 0 0 0, by decide, ⟨by decide, not_inside_of_unmapped (by decide)⟩,
   ⟨by decide, inside_of ⟨0x11000, 16⟩ (by decide) (by decide)⟩,
   ⟨by decide, inside_of ⟨0x11000, 16⟩ (by decide) (by decide)⟩⟩

theorem test_witness_MemWriteChecksThenWritesLittleEndian :
    ∃ s : State, Memory.wf s.mem = true ∧ ((0x11001#32).toNat % Width.half.bytes ≠ 0 ∧ (0x11002#32).toNat % Width.word.bytes ≠ 0) ∧
      ((0x11010#32).toNat % Width.word.bytes = 0 ∧ ¬s.insideOwner (0x11010#32).toNat Width.word.bytes) ∧
      ((0x1100C#32).toNat % Width.word.bytes = 0 ∧ s.insideOwner (0x1100C#32).toNat Width.word.bytes) :=
  ⟨vector 0 0 0, by decide, by decide, ⟨by decide, not_inside_of_unmapped (by decide)⟩,
   ⟨by decide, inside_of ⟨0x11000, 16⟩ (by decide) (by decide)⟩⟩

/-- A word written to D's last word, and a byte to D's last byte. -/
theorem test_witness_MixedWidthReadsSeeSubSlices :
    ∃ s : State, s.Inv ∧ (∃ t, s.memWrite 0x1100C .word 0x11223344 = .ok t) ∧
      ∃ t, s.memWrite 0x1100F .byte 0x11223344 = .ok t :=
  ⟨_, vector_inv, ⟨_, rfl⟩, ⟨_, rfl⟩⟩

/-- A store to the word at `pc + 4`. -/
theorem test_witness_StoredWordIsFetchedNext :
    ∃ s t : State, Memory.wf s.mem = true ∧ (s.readReg 1 + (0 : BitVec 12).signExtend 32).toNat % 4 = 0 ∧
      s.insideOwner (s.readReg 1 + (0 : BitVec 12).signExtend 32).toNat 4 ∧ exec (.sw 1 2 0) s = .next t ∧
      s.readReg 1 + (0 : BitVec 12).signExtend 32 = s.pc + 4 :=
  ⟨{ vector 0x0020A023 0x10004 0x00100093 with segs := [⟨0x10000, 8⟩] }, _, by decide, by decide,
   inside_of ⟨0x10000, 8⟩ (by decide) (by decide), rfl, by decide⟩

/-- The image of two adjacent segments, the first with one byte of file and one of zero fill. -/
def twoSegments : LaunchImage := ⟨[⟨0x10000, 2, [0x6F]⟩, ⟨0x10002, 2, []⟩], 0x10000, 0x12000⟩

/-- `LaunchSetsEntryAndStackPointer`, `LaunchFillsSegments` and `InvariantHoldsAfterLaunch`: an accepted image, and an
address in none of its segments. -/
theorem test_witness_launch :
    ∃ s, launch twoSegments = .ok s ∧ s.byteAt 0x10001 = some 0 ∧
      ∀ g ∈ twoSegments.segments, ¬(g.vaddr ≤ 0x10004 ∧ 0x10004 < g.vaddr + g.memsz) :=
  ⟨_, rfl, by decide, by decide⟩

/-- `LaunchRefusesBadSegments`: an image for each reason, and one for none. -/
theorem test_witness_LaunchRefusesBadSegments :
    [(⟨[⟨0x10000, 1, [0, 0]⟩], 0, 0⟩ : LaunchImage), ⟨[⟨0xFFFFFFFF, 2, []⟩], 0, 0⟩,
      ⟨[⟨0x10000, 8, []⟩, ⟨0x10007, 1, []⟩], 0, 0⟩, ⟨[⟨0xFFFFFFFF, 1, []⟩, ⟨0xFFFFFFFE, 1, []⟩], 0, 0⟩].map
      LaunchImage.problem =
    [some .fileLargerThanSegment, some .beyondAddressSpace, some .overlappingSegments, none] := by decide

theorem test_witness_ElfHeaderIsChecked :
    (∃ img, loadElf (elf 0x7F 1 0xF3 1 1 8 8) 0x12000 = .ok img) ∧
    ∃ s, launchElf (elf 0x7F 1 0xF3 1 1 8 8) 0x12000 = .ok s := ⟨⟨_, rfl⟩, ⟨_, rfl⟩⟩

/-- A field whose last byte is the file's, and one that needs a byte more. -/
theorem test_witness_ElfFieldsAreLittleEndian :
    0 < 2 ∧ fieldLE [0x00, 0x34, 0x12] 1 2 = some 0x1234 ∧ fieldLE [0x00, 0x34, 0x12] 2 2 = none := by decide

/-- `n` program headers of 24 bytes, each a `PT_LOAD` of one byte of memory and none of file, at the addresses given. -/
def headers (vaddrs : List Byte) : List Byte :=
  vaddrs.flatMap fun a => [1, 0, 0, 0, 0, 0, 0, 0, a, 0, 0, 0] ++ [0, 0, 0, 0, 0, 0, 0, 0, 1, 0, 0, 0]

/-- R213: one segment for each header, in table order. -/
theorem test_witness_ProgramHeadersAreReadInTableOrder :
    readProgramHeaders (headers [7, 3]) 24 2 0 = .ok [⟨7, 1, []⟩, ⟨3, 1, []⟩] := by decide

/-- The fields of the program header at offset 52 of a file. -/
def headerFields (file : List Byte) : List (Option Nat) :=
  [fieldLE file 52 4, fieldLE file 56 4, fieldLE file 60 4, fieldLE file 68 4, fieldLE file 72 4]

/-- Each of the four cases: another type (PT_NOTE), a range one byte beyond the file, more file than memory, and a
segment whose bytes end the file. -/
theorem test_witness_ProgramHeaderGivesSegment :
    (elf 0x7F 1 0xF3 1 1 8 8).length = 96 ∧
    headerFields (elf 0x7F 1 0xF3 1 4 8 8) = [some 4, some 84, some 0x10000, some 8, some 8] ∧
    headerFields (elf 0x7F 1 0xF3 1 1 13 16) = [some 1, some 84, some 0x10000, some 13, some 16] ∧
    headerFields (elf 0x7F 1 0xF3 1 1 12 8) = [some 1, some 84, some 0x10000, some 12, some 8] ∧
    headerFields (elf 0x7F 1 0xF3 1 1 12 12) = [some 1, some 84, some 0x10000, some 12, some 12] := by decide

/-- One program header, PT_NOTE; an entry that is a multiple of 4 and one that is not. -/
theorem test_witness_NoLoadableHeaderFaultsAtFirstFetch :
    (∀ i, i < 1 → ∃ v, fieldLE (elf 0x7F 1 0xF3 1 4 8 8) (52 + i * 32) 4 = some v ∧ v ≠ 1) ∧
    (0x10000#32).toNat % 4 = 0 ∧ (0x10002#32).toNat % 4 ≠ 0 := by
  refine ⟨fun i hi => ⟨4, ?_, by decide⟩, by decide, by decide⟩
  obtain rfl : i = 0 := by omega
  decide

theorem test_witness_HostObservesOnlyEndedRuns :
    (∃ s : State, s.status = .running) ∧ ∃ s : State, s.status ≠ .running :=
  ⟨⟨vector 0 0 0, rfl⟩, ⟨{ vector 0 0 0 with status := .faulted }, by decide⟩⟩

/-- A store that completes from a state that satisfies the invariant. -/
theorem test_witness_StepKeepsInvariant : ∃ s t : State, s.Inv ∧ step s = .next t ∧ t.mem ≠ s.mem :=
  ⟨_, _, vector_inv, rfl, by decide⟩

/-- A run from a launch that ends well, and one that ends in a fault. -/
theorem test_witness_EndedRunsEndWellOrFaulted :
    (∃ img s t, launch img = .ok s ∧ Reaches s t ∧ t.ended ∧ t.endedWell) ∧
    (∃ img s t, launch img = .ok s ∧ Reaches s t ∧ t.ended ∧ t.status = .faulted) :=
  ⟨⟨⟨[⟨0x10000, 4, [0x6F]⟩], 0x10000, 0⟩, _, _, rfl, .step (.refl _) rfl, by unfold State.ended; decide,
     by unfold State.endedWell; decide⟩,
   ⟨⟨[], 0x10000, 0⟩, _, _, rfl, .step (.refl _) rfl, by unfold State.ended; decide, by decide⟩⟩

end Sys2Proof.Tests
end

section
/-! PROOFS. Family 10_state: the invariant at reset and through a step, `icount` invisible to programs, `x[0]` hardwired,
and what the host may observe. -/

namespace Sys2Proof.Machine

variable {s t : State}

/-! ### The invariant under each update of the state -/

/-- A run that goes on has no fault record (spec/10_state.md R30). -/
theorem State.Inv.fault_none (h : s.Inv) (hs : s.status ≠ .faulted) : s.fault = none := by
  rw [← Option.not_isSome_iff_eq_none]
  exact fun hf => hs (h.record.mp hf)

/-- A fault leaves memory and registers alone, and fills the record with the state's own `pc` and `icount`. -/
theorem State.Inv.raise (h : s.Inv) (k : FaultKind) (w a : Option Word) : (s.raise k w a).Inv where
  memory := h.memory
  segments := h.segments
  mapped := h.mapped
  zeroCell := h.zeroCell
  record := by simp
  precise f hf := by
    obtain rfl := Option.some.inj hf
    exact ⟨rfl, rfl⟩

/-- No register write reaches anything the invariant speaks of. -/
theorem State.Inv.writeReg (h : s.Inv) (i : RegIdx) (v : Word) : (s.writeReg i v).Inv where
  memory := by simpa using h.memory
  segments := by simpa using h.segments
  mapped := by simpa using h.mapped
  zeroCell := (writeReg_zeroCell s i v).trans h.zeroCell
  record := by simpa using h.record
  precise := by simpa using h.precise

/-- Completing an instruction moves `pc` and `icount`, so it keeps the invariant of a run without a fault record. -/
theorem State.Inv.complete (h : s.Inv) (hs : s.status = .running) (n : Word) : (s.complete n).Inv := by
  have hf : s.fault = none := h.fault_none (by simp [hs])
  have hst : (s.complete n).status ≠ .faulted := by
    rw [complete_status, hs]
    split <;> decide
  exact {
    memory := h.memory
    segments := h.segments
    mapped := h.mapped
    zeroCell := h.zeroCell
    record := iff_of_false (by simp [hf]) hst
    precise f h' := nomatch hf.symm.trans h' }

/-- A store that passes the checks writes mapped addresses only, all within the address space. -/
theorem State.Inv.store (h : s.Inv) {ea : Word} {n : Width} (hok : s.accessOk ea n) (v : Word) :
    ({ s with mem := s.mem.writeLE ea.toNat n.bytes v } : State).Inv where
  memory := Memory.wf_writeBytes _ _ _ (by simpa using accessOk_bound s hok) h.memory
  segments := h.segments
  mapped c hc := by
    rcases Memory.mem_writeBytes _ _ _ _ hc with ⟨hlo, hhi⟩ | hold
    · rw [bytesLE_length] at hhi
      have hown := owner_of_accessOk s hok (c.1 - ea.toNat) (by omega)
      rwa [Nat.add_sub_cancel' hlo] at hown
    · exact h.mapped c hold
  zeroCell := h.zeroCell
  record := h.record
  precise := h.precise

/-- Whatever an instruction does to a running state keeps the invariant. -/
theorem Effect.keeps_inv {w : Word} (he : Effect w s t) (h : s.Inv) (hs : s.status = .running) : t.Inv := by
  rcases he with ⟨ea, n, p, _, rfl | rfl⟩ | ⟨rd, v, n, rfl⟩ | ⟨ea, n, v, hp, rfl⟩
  · exact h.raise ..
  · exact h.raise ..
  · exact (h.writeReg rd v).complete (by simpa using hs) n
  · exact (h.store ((accessProblem_none_iff s ea n).mp hp) v).complete hs s.seqPc

/-- Settles O53, by the cases of a step: a fault in fetch or decode, or the effect of one instruction. -/
theorem stepKeepsInvariant : Obligations.StepKeepsInvariant := by
  intro s t h hstep
  obtain ⟨hs, ⟨k, _, rfl⟩ | ⟨w, e, _, _, rfl⟩ | ⟨w, i, _, _, hexec⟩⟩ := step_cases s hstep
  · exact h.raise ..
  · exact h.raise ..
  · exact (exec_effect s hexec).keeps_inv h hs

/-- Settles O51: at reset nothing is mapped, no byte is listed and there is no record. -/
theorem invariantHoldsAtReset : Obligations.InvariantHoldsAtReset where
  memory := reset_memory_wf
  segments := rfl
  mapped c hc := absurd hc List.not_mem_nil
  zeroCell := rfl
  record := by decide
  precise f hf := nomatch hf

/-! ### `icount` is invisible to programs (spec/10_state.md R31) -/

/-- `t` and `u` agree in all that an instruction can read: everything but `icount` and the fault record, which holds a
copy of it. -/
def visiblySame (t u : State) : Prop :=
  u.regs = t.regs ∧ u.mem = t.mem ∧ u.segs = t.segs ∧ u.pc = t.pc ∧ u.status = t.status

theorem visiblySame_icount (s : State) (n : Nat) : visiblySame s { s with icount := n } := ⟨rfl, rfl, rfl, rfl, rfl⟩

section Updates

variable {u : State} (h : visiblySame t u)
include h

theorem visiblySame.raise (k : FaultKind) (w a : Option Word) : visiblySame (t.raise k w a) (u.raise k w a) := by
  obtain ⟨hr, hm, hg, hpc, _⟩ := h
  exact ⟨hr, hm, hg, hpc, rfl⟩

theorem visiblySame.complete (n : Word) : visiblySame (t.complete n) (u.complete n) := by
  obtain ⟨hr, hm, hg, hpc, hst⟩ := h
  exact ⟨hr, hm, hg, rfl, by simp [hpc, hst]⟩

theorem visiblySame.writeReg (i : RegIdx) (v : Word) : visiblySame (t.writeReg i v) (u.writeReg i v) := by
  obtain ⟨hr, hm, hg, hpc, hst⟩ := h
  refine ⟨?_, by simpa, by simpa, by simpa, by simpa⟩
  unfold State.writeReg
  split
  · exact hr
  · simp [hr]

theorem visiblySame.withMem (m : Memory) : visiblySame { t with mem := m } { u with mem := m } := by
  obtain ⟨hr, _, hg, hpc, hst⟩ := h
  exact ⟨hr, rfl, hg, hpc, hst⟩

end Updates

/-- From `s`, and from `s` with `n` for its count, `f` answers next states that a program cannot tell apart. -/
def blindToIcount (f : State → Host.Outcome State Fault Refusal) (s : State) (n : Nat) : Prop :=
  ∃ t u, f s = .next t ∧ f { s with icount := n } = .next u ∧ visiblySame t u

variable (s) (n : Nat)

theorem retire_blind (rd : RegIdx) (v : Word) : blindToIcount (retire rd v) s n :=
  ⟨_, _, rfl, rfl, ((visiblySame_icount s n).writeReg rd v).complete s.seqPc⟩

/-- A branch is blind to `icount` when its condition is. -/
theorem branchTo_blind {c : State → Bool} (hc : c { s with icount := n } = c s) (imm : BitVec 13) :
    blindToIcount (fun s => branchTo (c s) (branchTarget imm s) s) s n := by
  simp only [blindToIcount, hc]
  exact ⟨_, _, rfl, rfl, (visiblySame_icount s n).complete _⟩

theorem readReg_icount (i : RegIdx) : ({ s with icount := n } : State).readReg i = s.readReg i := rfl

/-- BLT compares integers, too deep to unfold for `rfl`: the condition is rewritten by the registers it reads. -/
theorem condLtSigned_icount (rs1 rs2 : RegIdx) :
    condLtSigned rs1 rs2 { s with icount := n } = condLtSigned rs1 rs2 s := by
  unfold condLtSigned
  rw [readReg_icount s n rs1, readReg_icount s n rs2]

theorem loadInto_blind (w : Word) (k : Width) (ext : Word → Word) (rd : RegIdx) (ea : Word) :
    blindToIcount (loadInto w k ext rd ea) s n := by
  have hsame := visiblySame_icount s n
  cases h : s.accessProblem ea k with
  | some p => exact ⟨_, _, loadInto_problem s h, loadInto_problem _ h, hsame.raise ..⟩
  | none => exact ⟨_, _, loadInto_ok s h, loadInto_ok _ h, (hsame.writeReg ..).complete _⟩

theorem storeAt_blind (w : Word) (k : Width) (ea v : Word) : blindToIcount (storeAt w k ea v) s n := by
  have hsame := visiblySame_icount s n
  cases h : s.accessProblem ea k with
  | some p => exact ⟨_, _, storeAt_problem s h, storeAt_problem _ h, hsame.raise ..⟩
  | none => exact ⟨_, _, storeAt_ok s h, storeAt_ok _ h, (hsame.withMem _).complete _⟩

/-- No instruction reads `icount`: each is one of the common ends, on operands that do not depend on it. -/
theorem exec_blind (i : Instr) : blindToIcount (exec i) s n := by
  cases i with
  | lb rd rs1 imm => exact loadInto_blind s n ..
  | lh rd rs1 imm => exact loadInto_blind s n ..
  | lw rd rs1 imm => exact loadInto_blind s n ..
  | lbu rd rs1 imm => exact loadInto_blind s n ..
  | lhu rd rs1 imm => exact loadInto_blind s n ..
  | sb rs1 rs2 imm => exact storeAt_blind s n ..
  | sh rs1 rs2 imm => exact storeAt_blind s n ..
  | sw rs1 rs2 imm => exact storeAt_blind s n ..
  | addi rd rs1 imm => exact retire_blind s n ..
  | slli rd rs1 shamt ignored => exact retire_blind s n ..
  | add rd rs1 rs2 => exact retire_blind s n ..
  | sub rd rs1 rs2 f7 => exact retire_blind s n ..
  | sll rd rs1 rs2 f7 => exact retire_blind s n ..
  | jal rd imm =>
    exact ⟨_, _, rfl, rfl, ((visiblySame_icount s n).writeReg rd (linkValue s)).complete (jumpTarget imm s)⟩
  | beq rs1 rs2 imm => exact branchTo_blind s n (c := condEq rs1 rs2) rfl imm
  | bne rs1 rs2 imm => exact branchTo_blind s n (c := condNe rs1 rs2) rfl imm
  | blt rs1 rs2 imm => exact branchTo_blind s n (condLtSigned_icount s n rs1 rs2) imm
  | bge rs1 rs2 imm => exact branchTo_blind s n (c := condGeUnsigned rs1 rs2) rfl imm
  | lui rd imm => exact retire_blind s n ..

theorem fetch_icount : ({ s with icount := n } : State).fetch = s.fetch := rfl

/-- A running engine whose fetch fails raises the fetch's fault, with no word (spec/60_exceptions.md R185, R186). -/
theorem step_of_fetch_error {k : FaultKind} (hs : s.status = .running) (hf : s.fetch = .error k) :
    step s = .next (s.raise k none (some s.pc)) := by
  simp [step, State.fetchDecode, hs, hf]

/-- A running engine that fetches a word that does not decode raises IllegalInstruction (spec/60_exceptions.md R184). -/
theorem step_of_decode_error {w : Word} {e : Illegal} (hs : s.status = .running) (hf : s.fetch = .ok w)
    (hd : decode w = .error e) : step s = .next (s.raise .illegalInstruction (some w) none) := by
  simp [step, State.fetchDecode, hs, hf, hd]

/-- A step of a running engine does not read `icount`, in the fetch or in the instruction. -/
theorem step_blind (hs : s.status = .running) : blindToIcount step s n := by
  have hsame := visiblySame_icount s n
  have hfetch := fetch_icount s n
  cases hf : s.fetch with
  | error k =>
    exact ⟨_, _, step_of_fetch_error s hs hf, step_of_fetch_error _ hs (hfetch.trans hf), hsame.raise ..⟩
  | ok w =>
    cases hd : decode w with
    | error e =>
      exact ⟨_, _, step_of_decode_error s hs hf hd, step_of_decode_error _ hs (hfetch.trans hf) hd, hsame.raise ..⟩
    | ok i =>
      obtain ⟨t, u, ht, hu, htu⟩ := exec_blind s n i
      have hstep := step_eq_exec { s with icount := n } hs (hfetch.trans hf) hd
      exact ⟨t, u, (step_eq_exec s hs hf hd).trans ht, hstep.trans hu, htu⟩

/-- Settles O33: an engine that steps is running, and both of its steps fetch the same word and run it blindly. -/
theorem icountIsInvisibleToInstructions : Obligations.IcountIsInvisibleToInstructions := by
  intro s t n hstep
  obtain ⟨t', u, ht, hu, htu⟩ := step_blind s n (step_cases s hstep).1
  obtain rfl : t' = t := Host.Outcome.next.inj (ht.symm.trans hstep)
  exact ⟨u, hu, htu⟩

/-! ### Registers and observation (spec/10_state.md R21, R35) -/

/-- Settles O36, by the laws of a read after a write. -/
theorem registerZeroIsHardwired : Obligations.RegisterZeroIsHardwired := by
  intro s i j v
  refine ⟨readReg_zero s, writeReg_zero s v, fun hi => ?_, readReg_writeReg_other s i j v⟩
  rw [readReg_writeReg_same, if_neg hi]

theorem observable_iff : s.observable = true ↔ s.status ≠ .running := decide_eq_true_iff

/-- Settles O50: each observation is guarded by `observable`, which is false just while the run lasts. -/
theorem hostObservesOnlyEndedRuns : Obligations.HostObservesOnlyEndedRuns := by
  intro s i a
  constructor
  · intro hs
    have ho : s.observable = false := by simp [← Bool.not_eq_true, observable_iff, hs]
    simp [State.observeReg, State.observeByte, State.observeStatus, State.observeFault, State.observeIcount,
      State.observePc, State.observed, ho]
  · intro hs
    have ho : s.observable = true := (observable_iff s).mpr hs
    simp [State.observeReg, State.observeByte, State.observeStatus, State.observeFault, State.observeIcount,
      State.observePc, State.observed, ho]

end Sys2Proof.Machine
end

section
/-! PROOFS. Family 20_memory: owners and the mapped set, the port's reads and writes, fetch, what a step does to memory,
and the invariant after a launch. -/

namespace Sys2Proof.Machine

variable {s t : State}

/-! ### Owners and the mapped set (spec/20_memory.md R41 to R44) -/

/-- An address holds a byte just when it has an owner. -/
theorem byteAt_none_iff (a : Nat) : s.byteAt a = none ↔ s.owner a = none := by
  unfold State.byteAt
  cases s.owner a <;> simp

/-- An address has an owner just when some segment covers it. -/
theorem owner_isSome_iff (a : Nat) :
    (s.owner a).isSome = true ↔ ∃ k ∈ s.segs, k.base ≤ a ∧ a < k.base + k.size := by
  rw [← Option.ne_none_iff_isSome, Ne, owner_none_iff]
  simp

/-- The mapped set is the union of the segments. -/
theorem byteAt_isSome_iff (a : Nat) :
    (s.byteAt a).isSome = true ↔ ∃ k ∈ s.segs, k.base ≤ a ∧ a < k.base + k.size := by
  rw [← owner_isSome_iff, ← Option.ne_none_iff_isSome, Ne, byteAt_none_iff, ← Ne, Option.ne_none_iff_isSome]

/-- Settles O37: an owner covers its address, and without overlaps it is the only segment that does. -/
theorem ownerIsTheCoveringSegment : Obligations.OwnerIsTheCoveringSegment := by
  intro s a h
  refine ⟨fun k => ⟨owner_covers s, ?_⟩, (byteAt_none_iff a).symm⟩
  rintro ⟨hk, hka⟩
  exact owner_eq_of_covers s h.segments hk hka

/-- No instruction writes the segments. -/
theorem Effect.keeps_segs {w : Word} (he : Effect w s t) : t.segs = s.segs := by
  rcases he with ⟨ea, n, p, _, rfl | rfl⟩ | ⟨rd, v, n, rfl⟩ | ⟨ea, n, v, _, rfl⟩ <;> simp

theorem step_keeps_segs (h : step s = .next t) : t.segs = s.segs := by
  obtain ⟨_, ⟨k, _, rfl⟩ | ⟨w, e, _, _, rfl⟩ | ⟨w, i, _, _, hexec⟩⟩ := step_cases s h
  · rfl
  · rfl
  · exact (exec_effect s hexec).keeps_segs

theorem reaches_keeps_segs (h : Reaches s t) : t.segs = s.segs := by
  induction h with
  | refl => rfl
  | step _ hstep ih => exact (step_keeps_segs hstep).trans ih

/-- Settles O38: what is mapped depends on the segments alone, and no step writes them. -/
theorem mappedSetIsFixed : Obligations.MappedSetIsFixed := by
  refine ⟨fun s a => byteAt_isSome_iff a, fun s t h => ?_⟩
  have hsegs := reaches_keeps_segs h
  exact ⟨hsegs, fun a => Bool.eq_iff_iff.mpr (by rw [byteAt_isSome_iff, byteAt_isSome_iff, hsegs])⟩

/-! ### The port's checks, in the terms of the obligations (spec/20_memory.md R45, R46, R48) -/

section Checks

variable {a : Word} {n : Width}

theorem accessProblem_of_misaligned (h : a.toNat % n.bytes ≠ 0) : s.accessProblem a n = some .misaligned :=
  (accessProblem_misaligned_iff s a n).mpr h

theorem accessProblem_of_outside (ha : a.toNat % n.bytes = 0) (hi : ¬s.insideOwner a.toNat n.bytes) :
    s.accessProblem a n = some .outside :=
  (accessProblem_outside_iff s a n).mpr ⟨ha, fun h => hi h.2⟩

theorem accessOk_of_inside (ha : a.toNat % n.bytes = 0) (hi : s.insideOwner a.toNat n.bytes) : s.accessOk a n :=
  ⟨ha, hi⟩

/-- The checks depend on the segments alone. -/
theorem accessOk_of_segs_eq (hsegs : t.segs = s.segs) (h : s.accessOk a n) : t.accessOk a n := by
  rwa [← accessProblem_none_iff, accessProblem_congr hsegs, accessProblem_none_iff]

theorem accessProblem_of_accessOk (h : s.accessOk a n) : s.accessProblem a n = none :=
  (accessProblem_none_iff s a n).mpr h

end Checks

/-! ### The number in `n` bytes (spec/20_memory.md R45, R47) -/

/-- The number in `n + 1` bytes, taken apart at its lowest byte. -/
theorem bytesNat_succ_low (a n : Nat) :
    s.bytesNat a (n + 1) = ((s.byteAt a).getD 0).toNat + 256 * s.bytesNat (a + 1) n := by
  induction n with
  | zero => simp [State.bytesNat]
  | succ n ih =>
    rw [State.bytesNat, ih, State.bytesNat, show a + 1 + n = a + (n + 1) by omega]
    ring

theorem bytesNat_lt (a n : Nat) : s.bytesNat a n < 2 ^ (8 * n) := by
  induction n with
  | zero => simp [State.bytesNat]
  | succ n ih =>
    have hbyte := ((s.byteAt (a + n)).getD 0).isLt
    have hpow : 256 ^ n = 2 ^ (8 * n) := by norm_num [pow_mul]
    rw [State.bytesNat, hpow, show 2 ^ (8 * (n + 1)) = 256 * 2 ^ (8 * n) by ring]
    nlinarith only [ih, hbyte]

/-- A byte below a shifted word: no bit is in both, so joining them is adding them. -/
theorem setWidth_or_shiftLeft (b : Byte) (v : Word) :
    b.setWidth 32 ||| v <<< 8 = b.setWidth 32 + v * 256#32 := by
  have hdisjoint : b.setWidth 32 &&& v <<< 8 = 0#32 := by
    ext i hi
    by_cases h : i < 8
    · simp [h]
    · simp [BitVec.getLsbD_of_ge b i (by omega)]
  rw [← BitVec.add_eq_or_of_and_eq_zero _ _ hdisjoint, BitVec.shiftLeft_eq_mul_twoPow]
  rfl

/-- Where every byte is mapped, a little-endian read is the number in the bytes. -/
theorem readLE_eq_bytesNat (a n : Nat) (h : ∀ j, j < n → s.byteAt (a + j) = some (s.mem.read (a + j))) :
    s.mem.readLE a n = BitVec.ofNat 32 (s.bytesNat a n) := by
  induction n generalizing a with
  | zero => rfl
  | succ n ih =>
    have hrest := ih (a + 1) fun j hj => by rw [show a + 1 + j = a + (j + 1) by omega]; exact h (j + 1) (by omega)
    have hlow : s.byteAt a = some (s.mem.read a) := h 0 (by omega)
    rw [Memory.readLE, hrest, setWidth_or_shiftLeft, bytesNat_succ_low, hlow]
    apply BitVec.eq_of_toNat_eq
    simp [Nat.mul_comm]

/-- An access that passes the checks reads the number in its bytes. -/
theorem readLE_of_accessOk {a : Word} {n : Width} (h : s.accessOk a n) :
    s.mem.readLE a.toNat n.bytes = BitVec.ofNat 32 (s.bytesNat a.toNat n.bytes) :=
  readLE_eq_bytesNat _ _ fun j hj => byteAt_of_owner s (owner_of_accessOk s h j hj)

/-! ### `MemRead` and `Fetch` -/

theorem memRead_problem {a : Word} {n : Width} {p : AccessProblem} (h : s.accessProblem a n = some p) :
    s.memRead a n = .error p.loadFault := by
  simp [State.memRead, h]

theorem memRead_ok {a : Word} {n : Width} (h : s.accessOk a n) :
    s.memRead a n = .ok (s.mem.readLE a.toNat n.bytes) := by
  simp [State.memRead, accessProblem_of_accessOk h]

/-- Settles O39, by the three answers of the checks. -/
theorem memReadChecksThenReadsLittleEndian : Obligations.MemReadChecksThenReadsLittleEndian := by
  intro s a n
  refine ⟨fun ha => memRead_problem (accessProblem_of_misaligned ha),
    fun ha hi => memRead_problem (accessProblem_of_outside ha hi), fun ha hi => ?_⟩
  have hok := accessOk_of_inside ha hi
  exact ⟨(memRead_ok hok).trans (congrArg _ (readLE_of_accessOk hok)), bytesNat_lt _ _⟩

theorem fetch_of_accessOk (h : s.accessOk s.pc .word) : s.fetch = .ok (s.mem.readLE s.pc.toNat 4) := by
  simp [State.fetch, accessProblem_of_accessOk h, Config.instrBytes]

/-- Settles O26, by the three answers of the checks; a step whose fetch fails raises the fetch's fault. -/
theorem fetchChecksThenReadsLittleEndian : Obligations.FetchChecksThenReadsLittleEndian := by
  intro s
  have hmis (ha : s.pc.toNat % 4 ≠ 0) : s.fetch = .error .fetchMisaligned :=
    fetch_problem s (accessProblem_of_misaligned (n := .word) ha)
  have hout (ha : s.pc.toNat % 4 = 0) (hi : ¬s.insideOwner s.pc.toNat 4) : s.fetch = .error .fetchAccessFault :=
    fetch_problem s (accessProblem_of_outside (n := .word) ha hi)
  refine ⟨hmis, hout, fun ha hi => ?_, fun hs => ?_⟩
  · have hok : s.accessOk s.pc .word := accessOk_of_inside ha hi
    exact (fetch_of_accessOk hok).trans (congrArg _ (readLE_of_accessOk hok))
  · exact ⟨fun ha => step_of_fetch_error s hs (hmis ha), fun ha hi => step_of_fetch_error s hs (hout ha hi)⟩

/-! ### `MemWrite` -/

theorem memWrite_problem {a v : Word} {n : Width} {p : AccessProblem} (h : s.accessProblem a n = some p) :
    s.memWrite a n v = .error p.storeFault := by
  simp [State.memWrite, h]

/-- A write succeeds just when it passes the checks, and then it writes the bytes and nothing else. -/
theorem memWrite_ok_iff {a v : Word} {n : Width} :
    s.memWrite a n v = .ok t ↔ s.accessOk a n ∧ t = { s with mem := s.mem.writeLE a.toNat n.bytes v } := by
  rw [← accessProblem_none_iff]
  unfold State.memWrite
  cases s.accessProblem a n <;> simp [eq_comm]

/-- Where a write passes the checks, byte `j` of its range becomes bits `8j+7 : 8j` of the value. -/
theorem byteAt_store_inside {a : Word} {n : Width} (hok : s.accessOk a n) (hwf : Memory.wf s.mem = true) (v : Word)
    {j : Nat} (hj : j < n.bytes) :
    ({ s with mem := s.mem.writeLE a.toNat n.bytes v } : State).byteAt (a.toNat + j) =
      some (v.extractLsb' (8 * j) 8) := by
  rw [← read_store_inside s.mem a.toNat n.bytes v j hj (accessOk_bound s hok) hwf]
  exact byteAt_of_owner _ (owner_of_accessOk s hok j hj)

/-- Settles O40, by the three answers of the checks and the laws of a byte after a store. -/
theorem memWriteChecksThenWritesLittleEndian : Obligations.MemWriteChecksThenWritesLittleEndian := by
  intro s a n v
  refine ⟨fun ha => memWrite_problem (accessProblem_of_misaligned ha),
    fun ha hi => memWrite_problem (accessProblem_of_outside ha hi), fun ha hi => ?_⟩
  have hok := accessOk_of_inside ha hi
  refine ⟨_, memWrite_ok_iff.mpr ⟨hok, rfl⟩, fun hwf => ⟨?_, fun j hj => byteAt_store_inside hok hwf v hj⟩,
    ⟨rfl, byteAt_store_outside s _ _ v⟩, rfl⟩
  exact Memory.wf_writeBytes _ _ _ (by simpa using accessOk_bound s hok) hwf

/-! ### A read after a write (spec/20_memory.md R49) -/

/-- Bits `8j` upwards, taken apart at their lowest byte. -/
theorem extractLsb'_low_byte (v : Word) (j l : Nat) :
    (v.extractLsb' (8 * j) 8).setWidth 32 ||| (v.extractLsb' (8 * (j + 1)) (8 * l)).setWidth 32 <<< 8 =
      (v.extractLsb' (8 * j) (8 * (l + 1))).setWidth 32 := by
  ext i hi
  by_cases h : i < 8
  · simp [h, show i < 8 * (l + 1) by omega]
  · simp [h, show i - 8 < 8 * l ↔ i < 8 * (l + 1) by omega, show 8 * (j + 1) + (i - 8) = 8 * j + i by omega]

/-- A read inside the bytes just written gives the slice of the value that lies there. -/
theorem readLE_writeLE (m : Memory) (a n : Nat) (v : Word) (ha : a + n ≤ Config.addressSpaceSize) (h : m.wf = true)
    (j l : Nat) (hj : j + l ≤ n) :
    (m.writeLE a n v).readLE (a + j) l = (v.extractLsb' (8 * j) (8 * l)).setWidth 32 := by
  induction l generalizing j with
  | zero => ext i hi; simp [Memory.readLE]
  | succ l ih =>
    rw [Memory.readLE, read_store_inside m a n v j (by omega) ha h, Nat.add_assoc, ih (j + 1) (by omega),
      extractLsb'_low_byte]

/-- An aligned part of an access that passes the checks passes them too: without overlaps its owner is the same. -/
theorem accessOk_part {a : Word} {n m : Width} (hsegs : segsWf s.segs = true) (h : s.accessOk a n) {j : Nat}
    (hj : j + m.bytes ≤ n.bytes) (hm : j % m.bytes = 0) :
    (a + BitVec.ofNat 32 j).toNat = a.toNat + j ∧ s.accessOk (a + BitVec.ofNat 32 j) m := by
  have hbound := accessOk_bound s h
  have hpos := m.bytes_pos
  obtain ⟨halign, k, hk, hend⟩ := h
  obtain ⟨hmem, hlo, _⟩ := owner_covers s hk
  have hwidth : m.bytes ∣ n.bytes := by
    cases m <;> cases n <;> simp [Width.bytes] at hj ⊢
  have haddr : (a + BitVec.ofNat 32 j).toNat = a.toNat + j := by
    unfold Config.addressSpaceSize at hbound
    rw [BitVec.toNat_add, BitVec.toNat_ofNat]
    omega
  refine ⟨haddr, ?_, k, ?_, ?_⟩
  · rw [haddr]
    have hdvd := (hwidth.trans (Nat.dvd_of_mod_eq_zero halign)).add (Nat.dvd_of_mod_eq_zero hm)
    exact Nat.mod_eq_zero_of_dvd hdvd
  · rw [haddr]
    exact owner_eq_of_covers s hsegs hmem ⟨by omega, by omega⟩
  · omega

/-- After a write, an aligned read of part of what was written gives the slice of the value that lies there. -/
theorem memRead_memWrite {a v : Word} {n m : Width} (hinv : s.Inv) (h : s.memWrite a n v = .ok t) {j : Nat}
    (hj : j + m.bytes ≤ n.bytes) (hm : j % m.bytes = 0) :
    t.memRead (a + BitVec.ofNat 32 j) m = .ok ((v.extractLsb' (8 * j) (8 * m.bytes)).setWidth 32) := by
  obtain ⟨hok, ht⟩ := memWrite_ok_iff.mp h
  obtain ⟨haddr, hpart⟩ := accessOk_part hinv.segments hok hj hm
  have hsegs : t.segs = s.segs := by rw [ht]
  rw [memRead_ok (accessOk_of_segs_eq hsegs hpart), haddr, ht]
  exact congrArg Except.ok (readLE_writeLE _ _ _ v (accessOk_bound s hok) hinv.memory j _ hj)

/-- After a write, a read of the same address, no wider, gives the low bytes of the value. -/
theorem memRead_memWrite_low {a v : Word} {n m : Width} (hinv : s.Inv) (h : s.memWrite a n v = .ok t)
    (hm : m.bytes ≤ n.bytes) : t.memRead a m = .ok ((v.extractLsb' 0 (8 * m.bytes)).setWidth 32) := by
  have hread := memRead_memWrite hinv h (m := m) (j := 0) (by omega) (Nat.zero_mod _)
  rwa [BitVec.add_zero] at hread

/-- Settles O41: each equation is one read of part of what was written. -/
theorem mixedWidthReadsSeeSubSlices : Obligations.MixedWidthReadsSeeSubSlices := by
  intro s t a v hinv
  refine ⟨fun h => ⟨fun j hj => ?_, ?_, ?_⟩, fun n h => ?_⟩
  · exact memRead_memWrite (m := .byte) hinv h (by simp only [Width.bytes]; omega) (Nat.mod_one j)
  · exact memRead_memWrite_low (m := .half) hinv h (by decide)
  · exact memRead_memWrite (m := .half) (j := 2) hinv h (by decide) (by decide)
  · rw [memRead_memWrite_low hinv h (le_refl n.bytes)]
    congr 1
    apply BitVec.eq_of_toNat_eq
    simp

/-- A fetch from a state whose memory has just had a word stored at `pc` gives that word. -/
theorem fetch_stored_word {ea v : Word} (hok : s.accessOk ea .word) (hwf : Memory.wf s.mem = true)
    (hsegs : t.segs = s.segs) (hmem : t.mem = s.mem.writeLE ea.toNat 4 v) (hpc : t.pc = ea) : t.fetch = .ok v := by
  have hcheck : t.accessOk t.pc .word := hpc ▸ accessOk_of_segs_eq hsegs hok
  have hread := readLE_writeLE s.mem ea.toNat 4 v (accessOk_bound s hok) hwf 0 4 (le_refl 4)
  rw [fetch_of_accessOk hcheck, hmem, hpc]
  simpa using hread

/-- Settles O42: the store leaves the segments, so the fetch passes the checks the store passed. -/
theorem storedWordIsFetchedNext : Obligations.StoredWordIsFetchedNext := by
  intro s t rs1 rs2 imm hwf ha hi hexec
  have hok : s.accessOk (effAddr rs1 imm s) .word := accessOk_of_inside ha hi
  obtain rfl := Host.Outcome.next.inj ((storeAt_ok s (accessProblem_of_accessOk hok)).symm.trans hexec)
  exact ⟨fetch_stored_word hok hwf rfl rfl rfl, fun hpc => fetch_stored_word hok hwf rfl rfl hpc.symm⟩

/-! ### Only stores change memory (spec/20_memory.md R51, spec/40_dispatch.md R95) -/

theorem memoryKept_of_eq (hsegs : t.segs = s.segs) (hmem : t.mem = s.mem) : memoryKept s t :=
  ⟨hsegs, byteAt_congr hsegs hmem⟩

theorem memoryKept_writeReg_complete (rd : RegIdx) (v n : Word) : memoryKept s ((s.writeReg rd v).complete n) :=
  memoryKept_of_eq (by simp) (by simp)

theorem loadInto_memoryKept {w : Word} {n : Width} {ext : Word → Word} {rd : RegIdx} {ea : Word}
    (h : loadInto w n ext rd ea s = .next t) : memoryKept s t := by
  cases hp : s.accessProblem ea n with
  | some p =>
    obtain rfl := Host.Outcome.next.inj ((loadInto_problem s hp).symm.trans h)
    exact memoryKept_of_eq rfl rfl
  | none =>
    obtain rfl := Host.Outcome.next.inj ((loadInto_ok s hp).symm.trans h)
    exact memoryKept_writeReg_complete ..

theorem retire_memoryKept {rd : RegIdx} {v : Word} (h : retire rd v s = .next t) : memoryKept s t := by
  obtain rfl := Host.Outcome.next.inj h
  exact memoryKept_writeReg_complete ..

theorem branchTo_memoryKept {c : Bool} {n : Word} (h : branchTo c n s = .next t) : memoryKept s t := by
  obtain rfl := Host.Outcome.next.inj h
  exact memoryKept_of_eq rfl rfl

/-- An instruction that is no store keeps memory. -/
theorem exec_memoryKept {i : Instr} (hi : Laws.classOf i ≠ .store) (h : exec i s = .next t) : memoryKept s t := by
  cases i with
  | lb rd rs1 imm => exact loadInto_memoryKept h
  | lh rd rs1 imm => exact loadInto_memoryKept h
  | lw rd rs1 imm => exact loadInto_memoryKept h
  | lbu rd rs1 imm => exact loadInto_memoryKept h
  | lhu rd rs1 imm => exact loadInto_memoryKept h
  | sb rs1 rs2 imm => exact absurd rfl hi
  | sh rs1 rs2 imm => exact absurd rfl hi
  | sw rs1 rs2 imm => exact absurd rfl hi
  | addi rd rs1 imm => exact retire_memoryKept h
  | slli rd rs1 shamt ignored => exact retire_memoryKept h
  | add rd rs1 rs2 => exact retire_memoryKept h
  | sub rd rs1 rs2 f7 => exact retire_memoryKept h
  | sll rd rs1 rs2 f7 => exact retire_memoryKept h
  | jal rd imm =>
    obtain rfl := Host.Outcome.next.inj h
    exact memoryKept_writeReg_complete ..
  | beq rs1 rs2 imm => exact branchTo_memoryKept h
  | bne rs1 rs2 imm => exact branchTo_memoryKept h
  | blt rs1 rs2 imm => exact branchTo_memoryKept h
  | bge rs1 rs2 imm => exact branchTo_memoryKept h
  | lui rd imm => exact retire_memoryKept h

/-- A store, faulting or not, keeps every register and every byte outside its own. -/
theorem storeAt_keeps {w ea v : Word} {n : Width} (h : storeAt w n ea v s = .next t) :
    memoryKeptOutside ea.toNat n.bytes s t ∧ regsKept s t := by
  cases hp : s.accessProblem ea n with
  | some p =>
    obtain rfl := Host.Outcome.next.inj ((storeAt_problem s hp).symm.trans h)
    exact ⟨⟨rfl, fun _ _ => rfl⟩, fun _ => rfl⟩
  | none =>
    obtain rfl := Host.Outcome.next.inj ((storeAt_ok s hp).symm.trans h)
    exact ⟨⟨rfl, byteAt_store_outside s _ _ v⟩, fun _ => rfl⟩

/-- The handler of a class decodes to an instruction of that class (spec/30_encoding.md R78). -/
theorem classOf_of_decodeClass {c : OpClass} {w : Word} {i : Instr} (h : decodeClass c w = .ok i) :
    Laws.classOf i = c := by
  cases c with
  | load => simp only [decodeClass, decodeLoad] at h; split_ifs at h <;> cases h <;> rfl
  | store => simp only [decodeClass, decodeStore] at h; split_ifs at h <;> cases h <;> rfl
  | arithImm => simp only [decodeClass, decodeArithImm] at h; split_ifs at h <;> cases h <;> rfl
  | arithReg => simp only [decodeClass, decodeArithReg] at h; split_ifs at h <;> cases h <;> rfl
  | jal => cases h; rfl
  | branch => simp only [decodeClass, decodeBranch] at h; split_ifs at h <;> cases h <;> rfl
  | lui => cases h; rfl

/-- The width of an access is in the low two bits of its funct3 (spec/20_memory.md R51). -/
theorem accessBytes_eq (w : Word) : accessBytes w = 2 ^ ((funct3 w).extractLsb' 0 2).toNat := by
  have : w.extractLsb' 12 2 = (funct3 w).extractLsb' 0 2 := by
    ext i hi
    simp [funct3, show i < 3 by omega]
  rw [accessBytes, this]

/-- A word that decodes as a store runs as one, at the address and of the width that its fields give. -/
theorem exec_of_decodeStore {w : Word} {i : Instr} (h : decodeStore w = .ok i) :
    ∃ n : Width, n.bytes = accessBytes w ∧
      ∀ s, exec i s = storeAt (encode i) n (s.readReg (rs1Field w) + immS w) (s.readReg (rs2Field w)) s := by
  unfold decodeStore at h
  split_ifs at h with hb hh hw
  · cases h
    exact ⟨.byte, by rw [accessBytes_eq, hb]; rfl, fun _ => rfl⟩
  · cases h
    exact ⟨.half, by rw [accessBytes_eq, hh]; rfl, fun _ => rfl⟩
  · cases h
    exact ⟨.word, by rw [accessBytes_eq, hw]; rfl, fun _ => rfl⟩

/-- Settles O32: a word that is no store decodes to an instruction that keeps memory; a store changes its own bytes. -/
theorem onlyStoresChangeMemory : Obligations.OnlyStoresChangeMemory := by
  intro s t w hstep hfetch
  obtain ⟨_, ⟨k, hk, _⟩ | ⟨w', e, _, _, rfl⟩ | ⟨w', i, hw, hdec, hexec⟩⟩ := step_cases s hstep
  · cases hk.symm.trans hfetch
  · exact ⟨fun _ => memoryKept_of_eq rfl rfl, fun _ => ⟨⟨rfl, fun _ _ => rfl⟩, fun _ => rfl⟩⟩
  · obtain rfl : w' = w := Except.ok.inj (hw.symm.trans hfetch)
    obtain ⟨c, hc, hclass⟩ := class_of_decode hdec
    constructor
    · intro hop
      refine exec_memoryKept (fun hstore => hop ?_) hexec
      rw [classOf_of_decodeClass hclass] at hstore
      subst hstore
      simpa [dispatchTable, opcode] using (opClass?_eq_some_iff _ _).mp hc
    · intro hop
      obtain rfl : OpClass.store = c := Option.some.inj (Eq.trans (by rw [opcode, hop]; rfl) hc)
      obtain ⟨n, hn, hstore⟩ := exec_of_decodeStore hclass
      rw [hstore s] at hexec
      exact hn ▸ storeAt_keeps hexec

/-! ### The invariant after a launch (spec/70_reset_and_hazards.md R213, R215) -/

/-- Settles O52: the checks keep the segments apart and in the address space, and every byte listed is a segment's. -/
theorem invariantHoldsAfterLaunch : Obligations.InvariantHoldsAfterLaunch := by
  intro img s h
  obtain ⟨hchecks, rfl⟩ := (launch_ok_iff img s).mp h
  obtain ⟨hfile, hbound, hoverlap⟩ := (problem_none_iff img).mp hchecks
  exact {
    memory := by simpa using imageMemory_wf hfile hbound
    segments := by
      rw [setup_segs]
      exact segsWf_of_checks (List.forall_mem_map.mpr hbound) hoverlap
    mapped := by
      intro c hc
      rw [setup_mem] at hc
      obtain ⟨g, hg, hlo, hhi⟩ := mem_imageMemory hc
      have hsize := hfile g hg
      rw [owner_isSome_iff, setup_segs]
      exact ⟨g.range, List.mem_map_of_mem hg, hlo, by simp only [LaunchSegment.range]; omega⟩
    zeroCell := writeReg_zeroCell ..
    record := by simp
    precise := by simp }

end Sys2Proof.Machine
end

section
/-! PROOFS. Family 30_encoding: decoder and encoder are inverse to each other, the immediates bit by bit, and the even
`pc` that even offsets leave. -/

namespace Sys2Proof

/-! ### The opcode of a class (spec/30_encoding.md R75, R76) -/

/-- The opcode that the dispatch table gives a class. -/
def OpClass.code : OpClass → BitVec 7
  | .load => 0b0000011
  | .store => 0b0100011
  | .arithImm => 0b0010011
  | .arithReg => 0b0110011
  | .jal => 0b1101111
  | .branch => 0b1100011
  | .lui => 0b0110111

theorem opClass?_eq_some_iff_code (op : BitVec 7) (c : OpClass) : opClass? op = some c ↔ op = c.code := by
  rw [opClass?_eq_some_iff]
  cases c <;> simp [dispatchTable, OpClass.code]

/-- The word of an instruction has the opcode of the instruction's class. -/
theorem opClass?_opcode_encode (i : Instr) : opClass? (opcode (encode i)) = some (Laws.classOf i) := by
  cases i with
  | lb rd rs1 imm => exact Laws.OpcodeOfEncode.lb ..
  | lh rd rs1 imm => exact Laws.OpcodeOfEncode.lh ..
  | lw rd rs1 imm => exact Laws.OpcodeOfEncode.lw ..
  | lbu rd rs1 imm => exact Laws.OpcodeOfEncode.lbu ..
  | lhu rd rs1 imm => exact Laws.OpcodeOfEncode.lhu ..
  | sb rs1 rs2 imm => exact Laws.OpcodeOfEncode.sb ..
  | sh rs1 rs2 imm => exact Laws.OpcodeOfEncode.sh ..
  | sw rs1 rs2 imm => exact Laws.OpcodeOfEncode.sw ..
  | addi rd rs1 imm => exact Laws.OpcodeOfEncode.addi ..
  | slli rd rs1 shamt ignored => exact Laws.OpcodeOfEncode.slli ..
  | add rd rs1 rs2 => exact Laws.OpcodeOfEncode.add ..
  | sub rd rs1 rs2 f7 => exact Laws.OpcodeOfEncode.sub ..
  | sll rd rs1 rs2 f7 => exact Laws.OpcodeOfEncode.sll ..
  | jal rd imm => exact Laws.OpcodeOfEncode.jal ..
  | beq rs1 rs2 imm => exact Laws.OpcodeOfEncode.beq ..
  | bne rs1 rs2 imm => exact Laws.OpcodeOfEncode.bne ..
  | blt rs1 rs2 imm => exact Laws.OpcodeOfEncode.blt ..
  | bge rs1 rs2 imm => exact Laws.OpcodeOfEncode.bge ..
  | lui rd imm => exact Laws.OpcodeOfEncode.lui ..

/-! ### Decoding an encoded instruction -/

/-- A class's handler reads back every operand of a well-formed instruction of the class. -/
theorem decodeClass_encode (i : Instr) (h : WellFormed i) : decodeClass (Laws.classOf i) (encode i) = .ok i := by
  cases i with
  | lb rd rs1 imm => simp [decodeClass, Laws.classOf, decodeLoad, encode]
  | lh rd rs1 imm => simp [decodeClass, Laws.classOf, decodeLoad, encode]
  | lw rd rs1 imm => simp [decodeClass, Laws.classOf, decodeLoad, encode]
  | lbu rd rs1 imm => simp [decodeClass, Laws.classOf, decodeLoad, encode]
  | lhu rd rs1 imm => simp [decodeClass, Laws.classOf, decodeLoad, encode]
  | sb rs1 rs2 imm => simp [decodeClass, Laws.classOf, decodeStore, encode]
  | sh rs1 rs2 imm => simp [decodeClass, Laws.classOf, decodeStore, encode]
  | sw rs1 rs2 imm => simp [decodeClass, Laws.classOf, decodeStore, encode]
  | addi rd rs1 imm => simp [decodeClass, Laws.classOf, decodeArithImm, encode]
  | slli rd rs1 shamt ignored => simp [decodeClass, Laws.classOf, decodeArithImm, encode]
  | add rd rs1 rs2 => simp [decodeClass, Laws.classOf, decodeArithReg, encode]
  | sub rd rs1 rs2 f7 =>
    have hf7 : f7 ≠ 0 := bne_iff_ne.mp h
    simpa [decodeClass, Laws.classOf, decodeArithReg, encode] using hf7
  | sll rd rs1 rs2 f7 => simp [decodeClass, Laws.classOf, decodeArithReg, encode]
  | jal rd imm => simp [decodeClass, Laws.classOf, encode, immJField_encodeJ _ _ imm h]
  | beq rs1 rs2 imm => simp [decodeClass, Laws.classOf, decodeBranch, encode, immBField_encodeB _ _ _ _ imm h]
  | bne rs1 rs2 imm => simp [decodeClass, Laws.classOf, decodeBranch, encode, immBField_encodeB _ _ _ _ imm h]
  | blt rs1 rs2 imm => simp [decodeClass, Laws.classOf, decodeBranch, encode, immBField_encodeB _ _ _ _ imm h]
  | bge rs1 rs2 imm => simp [decodeClass, Laws.classOf, decodeBranch, encode, immBField_encodeB _ _ _ _ imm h]
  | lui rd imm => simp [decodeClass, Laws.classOf, encode]

/-- Settles O1: the opcode of the word selects the instruction's class, whose handler reads the operands back. -/
theorem decodeOfEncodeIsIdentity : Obligations.DecodeOfEncodeIsIdentity := fun i h =>
  (decode_of_class (opClass?_opcode_encode i)).trans (decodeClass_encode i h)

/-! ### Encoding a decoded word -/

section Rebuilt
variable {w : Word} {op f7 : BitVec 7} {f3 : BitVec 3}

theorem encodeR_of_fields (hop : opcode w = op) (hf3 : funct3 w = f3) (hf7 : funct7 w = f7) :
    encodeR f7 (rs2Field w) (rs1Field w) f3 (rdField w) op = w := hop ▸ hf3 ▸ hf7 ▸ encodeR_fields w

theorem encodeI_of_fields (hop : opcode w = op) (hf3 : funct3 w = f3) :
    encodeI (immIField w) (rs1Field w) f3 (rdField w) op = w := hop ▸ hf3 ▸ encodeI_fields w

theorem encodeS_of_fields (hop : opcode w = op) (hf3 : funct3 w = f3) :
    encodeS (immSField w) (rs2Field w) (rs1Field w) f3 op = w := hop ▸ hf3 ▸ encodeS_fields w

theorem encodeB_of_fields (hop : opcode w = op) (hf3 : funct3 w = f3) :
    encodeB (immBField w) (rs2Field w) (rs1Field w) f3 op = w := hop ▸ hf3 ▸ encodeB_fields w

theorem encodeU_of_fields (hop : opcode w = op) : encodeU (immUField w) (rdField w) op = w := hop ▸ encodeU_fields w

theorem encodeJ_of_fields (hop : opcode w = op) : encodeJ (immJField w) (rdField w) op = w := hop ▸ encodeJ_fields w

end Rebuilt

/-- A word of a class that its handler decodes is the word of a well-formed instruction, the one it decodes to. -/
theorem encode_of_decodeClass {c : OpClass} {w : Word} {i : Instr} (hop : opcode w = c.code)
    (h : decodeClass c w = .ok i) : WellFormed i ∧ encode i = w := by
  cases c with
  | load =>
    simp only [decodeClass, decodeLoad] at h
    split_ifs at h with lb lh lw lbu lhu <;> cases h
    · exact ⟨rfl, encodeI_of_fields hop lb⟩
    · exact ⟨rfl, encodeI_of_fields hop lh⟩
    · exact ⟨rfl, encodeI_of_fields hop lw⟩
    · exact ⟨rfl, encodeI_of_fields hop lbu⟩
    · exact ⟨rfl, encodeI_of_fields hop lhu⟩
  | store =>
    simp only [decodeClass, decodeStore] at h
    split_ifs at h with sb sh sw <;> cases h
    · exact ⟨rfl, encodeS_of_fields hop sb⟩
    · exact ⟨rfl, encodeS_of_fields hop sh⟩
    · exact ⟨rfl, encodeS_of_fields hop sw⟩
  | arithImm =>
    simp only [decodeClass, decodeArithImm] at h
    split_ifs at h with addi slli <;> cases h
    · exact ⟨rfl, encodeI_of_fields hop addi⟩
    · exact ⟨rfl, encodeR_of_fields hop slli rfl⟩
  | arithReg =>
    simp only [decodeClass, decodeArithReg] at h
    split_ifs at h with hf3 hf7 sll <;> cases h
    · exact ⟨rfl, encodeR_of_fields hop hf3 hf7⟩
    · exact ⟨bne_iff_ne.mpr hf7, encodeR_of_fields hop hf3 rfl⟩
    · exact ⟨rfl, encodeR_of_fields hop sll rfl⟩
  | jal =>
    cases h
    exact ⟨immJField_even w, encodeJ_of_fields hop⟩
  | branch =>
    simp only [decodeClass, decodeBranch] at h
    split_ifs at h with beq bne blt bge <;> cases h
    · exact ⟨immBField_even w, encodeB_of_fields hop beq⟩
    · exact ⟨immBField_even w, encodeB_of_fields hop bne⟩
    · exact ⟨immBField_even w, encodeB_of_fields hop blt⟩
    · exact ⟨immBField_even w, encodeB_of_fields hop bge⟩
  | lui =>
    cases h
    exact ⟨rfl, encodeU_of_fields hop⟩

/-- Settles O2: the word has the opcode of the class that decoded it, and the class's handler tests the rest. -/
theorem encodeOfDecodeIsIdentity : Obligations.EncodeOfDecodeIsIdentity := by
  intro w i h
  obtain ⟨c, hc, hclass⟩ := class_of_decode h
  exact encode_of_decodeClass ((opClass?_eq_some_iff_code _ c).mp hc) hclass

/-! ### The immediates (spec/30_encoding.md R69 to R73) -/

theorem evenOffset_iff {n : Nat} (v : BitVec n) : evenOffset v = true ↔ v.toNat % 2 = 0 := by
  simp [evenOffset, BitVec.getLsbD, Nat.testBit_zero]

/-- Sign extension keeps bit 0. -/
theorem evenOffset_signExtend {n : Nat} (v : BitVec (n + 1)) (h : evenOffset v = true) :
    evenOffset (v.signExtend 32) = true := by
  simpa [evenOffset, ← BitVec.getLsbD_eq_getElem, BitVec.getLsbD_signExtend] using h

/-- A signed number is even when bit 0 is clear: its sign bit weighs an even number. -/
theorem toInt_emod_two {n : Nat} (v : BitVec (n + 1)) (h : evenOffset v = true) : v.toInt % 2 = 0 := by
  have heven := (evenOffset_iff v).mp h
  rw [BitVec.toInt_eq_toNat_cond, Nat.pow_succ]
  split <;> omega

/-- A sign-extended field is in the range of its width. -/
theorem signExtend_toInt_bounds {n : Nat} (v : BitVec (n + 1)) (hn : n < 32) :
    -2 ^ n ≤ (v.signExtend 32).toInt ∧ (v.signExtend 32).toInt < 2 ^ n := by
  rw [BitVec.toInt_signExtend_of_le hn]
  exact ⟨BitVec.le_toInt v, BitVec.toInt_lt⟩

/-- A sign-extended even field is even. -/
theorem signExtend_toInt_even {n : Nat} (v : BitVec (n + 1)) (hn : n < 32) (h : evenOffset v = true) :
    (v.signExtend 32).toInt % 2 = 0 := by
  rw [BitVec.toInt_signExtend_of_le hn]
  exact toInt_emod_two v h

theorem immSField_eq (w : Word) :
    immSField w = (w.extractLsb' 7 5).setWidth 12 ||| (w.extractLsb' 25 7).setWidth 12 <<< 5 := by
  simp [immSField, place]

/-- The U immediate is the word with its low 12 bits cleared (R72). -/
theorem immU_eq_mask (w : Word) : immU w = w &&& 0xFFFFF000 := by
  apply BitVec.eq_of_getLsbD_eq
  intro i hi
  simp only [immU, upperImm, immUField, getLsbD_place_field]
  interval_cases i <;> simp

/-- The U immediate is the payload times `2 ^ 12`: 20 bits moved up by 12 stay within the word (R72). -/
theorem upperImm_toNat (imm : BitVec 20) : (upperImm imm).toNat = imm.toNat * 2 ^ 12 := by
  have himm := imm.isLt
  simp only [upperImm, place, BitVec.toNat_shiftLeft, BitVec.toNat_setWidth, Nat.shiftLeft_eq]
  omega

/-- Settles O4: the fields are the formats' bits, and a sign-extended field has the range of its width and the parity of
its bit 0. -/
theorem immediatesFollowTheFormats : Obligations.ImmediatesFollowTheFormats := by
  intro w
  obtain ⟨hIlo, hIhi⟩ := signExtend_toInt_bounds (immIField w) (by decide)
  obtain ⟨hSlo, hShi⟩ := signExtend_toInt_bounds (immSField w) (by decide)
  obtain ⟨hBlo, hBhi⟩ := signExtend_toInt_bounds (immBField w) (by decide)
  obtain ⟨hJlo, hJhi⟩ := signExtend_toInt_bounds (immJField w) (by decide)
  have hBeven := signExtend_toInt_even (immBField w) (by decide) (immBField_even w)
  have hJeven := signExtend_toInt_even (immJField w) (by decide) (immJField_even w)
  refine ⟨⟨rfl, hIlo, ?_⟩, ⟨immSField_eq w ▸ rfl, rfl, hSlo, ?_⟩, ⟨rfl, rfl, hBeven, hBlo, ?_⟩,
    ⟨immU_eq_mask w, upperImm_toNat _⟩, ⟨rfl, rfl, hJeven, hJlo, ?_⟩⟩
  · exact Int.le_of_lt_add_one hIhi
  · exact Int.le_of_lt_add_one hShi
  · simp only [immB, extendImm13]; omega
  · simp only [immJ, extendImm21]; omega

end Sys2Proof

namespace Sys2Proof.Machine

variable {s t : State}

/-! ### Even `pc` (spec/30_encoding.md R71, R73, spec/20_memory.md R48) -/

/-- `t.pc` is an even distance from `s.pc`, modulo 2^32. -/
def evenMove (s t : State) : Prop := ∃ off : Word, evenOffset off = true ∧ t.pc = s.pc + off

theorem evenMove_of_seqPc (h : t.pc = s.seqPc) : evenMove s t := ⟨4, by decide, h⟩

/-- An even distance from an even `pc` is even: `2 ^ 32` is even too. -/
theorem evenMove.even (h : evenMove s t) (hs : s.pc.toNat % 2 = 0) : t.pc.toNat % 2 = 0 := by
  obtain ⟨off, heven, hpc⟩ := h
  have hoff := (evenOffset_iff off).mp heven
  rw [hpc, BitVec.toNat_add]
  omega

/-- A load that does not fault goes on to the next instruction. -/
theorem loadInto_pc {w : Word} {n : Width} {ext : Word → Word} {rd : RegIdx} {ea : Word}
    (h : loadInto w n ext rd ea s = .next t) (ht : t.status ≠ .faulted) : t.pc = s.seqPc := by
  cases hp : s.accessProblem ea n with
  | some p =>
    obtain rfl := Host.Outcome.next.inj ((loadInto_problem s hp).symm.trans h)
    exact absurd rfl ht
  | none =>
    obtain rfl := Host.Outcome.next.inj ((loadInto_ok s hp).symm.trans h)
    rfl

/-- A store that does not fault goes on to the next instruction. -/
theorem storeAt_pc {w ea v : Word} {n : Width} (h : storeAt w n ea v s = .next t) (ht : t.status ≠ .faulted) :
    t.pc = s.seqPc := by
  cases hp : s.accessProblem ea n with
  | some p =>
    obtain rfl := Host.Outcome.next.inj ((storeAt_problem s hp).symm.trans h)
    exact absurd rfl ht
  | none =>
    obtain rfl := Host.Outcome.next.inj ((storeAt_ok s hp).symm.trans h)
    rfl

theorem retire_pc {rd : RegIdx} {v : Word} (h : retire rd v s = .next t) : t.pc = s.seqPc := by
  obtain rfl := Host.Outcome.next.inj h
  rfl

/-- A branch goes by its offset or to the next instruction. -/
theorem branchTo_evenMove {c : Bool} {imm : BitVec 13} (hi : evenOffset imm = true)
    (h : branchTo c (branchTarget imm s) s = .next t) : evenMove s t := by
  obtain rfl := Host.Outcome.next.inj h
  cases c with
  | true => exact ⟨_, evenOffset_signExtend imm hi, rfl⟩
  | false => exact evenMove_of_seqPc rfl

/-- A well-formed instruction that does not fault moves `pc` by an even distance. -/
theorem exec_evenMove {i : Instr} (hi : WellFormed i) (h : exec i s = .next t) (ht : t.status ≠ .faulted) :
    evenMove s t := by
  cases i with
  | lb rd rs1 imm => exact evenMove_of_seqPc (loadInto_pc h ht)
  | lh rd rs1 imm => exact evenMove_of_seqPc (loadInto_pc h ht)
  | lw rd rs1 imm => exact evenMove_of_seqPc (loadInto_pc h ht)
  | lbu rd rs1 imm => exact evenMove_of_seqPc (loadInto_pc h ht)
  | lhu rd rs1 imm => exact evenMove_of_seqPc (loadInto_pc h ht)
  | sb rs1 rs2 imm => exact evenMove_of_seqPc (storeAt_pc h ht)
  | sh rs1 rs2 imm => exact evenMove_of_seqPc (storeAt_pc h ht)
  | sw rs1 rs2 imm => exact evenMove_of_seqPc (storeAt_pc h ht)
  | addi rd rs1 imm => exact evenMove_of_seqPc (retire_pc h)
  | slli rd rs1 shamt ignored => exact evenMove_of_seqPc (retire_pc h)
  | add rd rs1 rs2 => exact evenMove_of_seqPc (retire_pc h)
  | sub rd rs1 rs2 f7 => exact evenMove_of_seqPc (retire_pc h)
  | sll rd rs1 rs2 f7 => exact evenMove_of_seqPc (retire_pc h)
  | jal rd imm =>
    obtain rfl := Host.Outcome.next.inj h
    exact ⟨_, evenOffset_signExtend imm hi, rfl⟩
  | beq rs1 rs2 imm => exact branchTo_evenMove hi h
  | bne rs1 rs2 imm => exact branchTo_evenMove hi h
  | blt rs1 rs2 imm => exact branchTo_evenMove hi h
  | bge rs1 rs2 imm => exact branchTo_evenMove hi h
  | lui rd imm => exact evenMove_of_seqPc (retire_pc h)

/-- Only a `pc` that is a multiple of 4 is fetched from (spec/20_memory.md R48). -/
theorem fetch_ok_aligned {w : Word} (h : s.fetch = .ok w) : s.pc.toNat % 4 = 0 := by
  by_contra hmis
  exact nomatch (fetch_problem s ((accessProblem_misaligned_iff s s.pc .word).mpr hmis)).symm.trans h

/-- Settles O31: the word fetched decodes to a well-formed instruction, which moves an aligned `pc` evenly. -/
theorem completedStepsLeavePcEven : Obligations.CompletedStepsLeavePcEven := by
  intro s t hstep ht
  obtain ⟨_, ⟨k, _, rfl⟩ | ⟨w, e, _, _, rfl⟩ | ⟨w, i, hfetch, hdec, hexec⟩⟩ := step_cases s hstep
  · exact absurd rfl ht
  · exact absurd rfl ht
  · have hwf := (encodeOfDecodeIsIdentity w i hdec).1
    have haligned := fetch_ok_aligned hfetch
    exact (exec_evenMove hwf hexec ht).even (by omega)

end Sys2Proof.Machine
end

section
/-! PROOFS. Family 40_dispatch: what a step counts, which steps halt the run or leave the sequence, and how runs end. -/

namespace Sys2Proof

variable {w : Word}

/-! ### The masks of the control transfers, as tests on fields (spec/opcode_table.json) -/

/-- The mask of a row with opcode and funct3 keeps those two fields. -/
theorem and_opcode_funct3_mask (w : Word) :
    w &&& 0x0000707F = place 32 (funct3 w) 12 ||| place 32 (opcode w) 0 := by
  apply BitVec.eq_of_getLsbD_eq
  intro i hi
  simp only [funct3, opcode, BitVec.getLsbD_or, getLsbD_place_field]
  interval_cases i <;> simp

/-- The mask of a row with an opcode alone keeps that field. -/
theorem and_opcode_mask (w : Word) : w &&& 0x0000007F = place 32 (opcode w) 0 := by
  apply BitVec.eq_of_getLsbD_eq
  intro i hi
  simp only [opcode, getLsbD_place_field]
  interval_cases i <;> simp

theorem opcode_funct3_mask_iff {m : Word} (hm : m &&& 0x0000707F = m) :
    w &&& 0x0000707F = m ↔ opcode w = opcode m ∧ funct3 w = funct3 m := by
  refine ⟨opcode_funct3_of_mask w m, fun ⟨hop, hf3⟩ => ?_⟩
  rw [and_opcode_funct3_mask, hop, hf3, ← and_opcode_funct3_mask, hm]

theorem jal_mask_iff : w &&& 0x0000007F = 0x0000006F ↔ opcode w = OpClass.jal.code := by
  refine ⟨fun h => (opcode_of_mask w _ h).trans rfl, fun h => ?_⟩
  rw [and_opcode_mask, h]
  rfl

/-- Each class has an opcode of its own (spec/30_encoding.md R75). -/
theorem OpClass.code_injective : Function.Injective OpClass.code := fun c d h =>
  Option.some.inj (((opClass?_eq_some_iff_code _ c).mpr rfl).symm.trans ((opClass?_eq_some_iff_code _ d).mpr h))

/-- A mask that keeps every bit of the offset leaves the J immediate alone. -/
theorem immJField_and_mask (w : Word) : immJField (w &&& 0xFFFFF07F) = immJField w := by
  unfold immJField
  rw [field_of_mask w _ 21 10 (by decide), field_of_mask w _ 20 1 (by decide), field_of_mask w _ 12 8 (by decide),
    field_of_mask w _ 31 1 (by decide)]

/-- A sign-extended field is zero only if the field is. -/
theorem signExtend_eq_zero_iff {n : Nat} (v : BitVec (n + 1)) (hn : n < 32) : v.signExtend 32 = 0 ↔ v = 0 := by
  rw [← BitVec.toInt_inj, ← BitVec.toInt_inj, BitVec.toInt_signExtend_of_le hn]
  simp

/-- The word of a JAL with offset zero, whatever its `rd` (spec/40_dispatch.md R100). -/
theorem self_jal_mask_iff : w &&& 0xFFFFF07F = 0x0000006F ↔ opcode w = OpClass.jal.code ∧ immJ w = 0 := by
  rw [immJ, extendImm21, signExtend_eq_zero_iff _ (by decide)]
  constructor
  · intro h
    have hop : opcode (w &&& 0xFFFFF07F) = opcode w := field_of_mask w _ 0 7 (by decide)
    rw [← hop, ← immJField_and_mask, h]
    decide
  · rintro ⟨hop, himm⟩
    have hword := encodeJ_of_fields hop
    rw [← hword, himm]
    generalize rdField w = rd
    revert rd
    decide

end Sys2Proof

namespace Sys2Proof.Machine

variable {s t : State} {w : Word} {i : Instr}

/-! ### What a step counts (spec/40_dispatch.md R97 to R101) -/

/-- An instruction that writes a register, or `x0` for none, and goes to `n`. -/
theorem wentTo_writeReg_complete (rd : RegIdx) (v n : Word) : wentTo n s ((s.writeReg rd v).complete n) := by
  simp [wentTo]

/-- An instruction raises a precise fault, or completes and goes to its next `pc`. -/
theorem Effect.raises_or_goes (he : Effect w s t) : (∃ k w a, t = s.raise k w a) ∨ wentTo t.pc s t := by
  rcases he with ⟨ea, n, p, _, rfl | rfl⟩ | ⟨rd, v, n, rfl⟩ | ⟨ea, n, v, _, rfl⟩
  · exact .inl ⟨_, _, _, rfl⟩
  · exact .inl ⟨_, _, _, rfl⟩
  · exact .inr (wentTo_writeReg_complete rd v n)
  · exact .inr ⟨rfl, rfl, rfl, rfl⟩

theorem step_raises_or_goes (h : step s = .next t) : (∃ k w a, t = s.raise k w a) ∨ wentTo t.pc s t := by
  obtain ⟨_, ⟨k, _, rfl⟩ | ⟨w, e, _, _, rfl⟩ | ⟨w, i, _, _, hexec⟩⟩ := step_cases s h
  · exact .inl ⟨_, _, _, rfl⟩
  · exact .inl ⟨_, _, _, rfl⟩
  · exact (exec_effect s hexec).raises_or_goes

section Running

variable (hs : s.status = .running) {target : Word} (h : wentTo target s t)
include hs h

/-- A running engine that completes an instruction halts just when the target is the instruction's own address. -/
theorem wentTo.halted_iff : t.status = .halted ↔ target = s.pc := by
  obtain ⟨_, _, _, hst⟩ := h
  rw [hst, hs]
  by_cases htarget : target = s.pc <;> simp [htarget]

theorem wentTo.not_faulted : t.status ≠ .faulted := by
  obtain ⟨_, _, _, hst⟩ := h
  rw [hst, hs]
  split <;> decide

end Running

/-- Settles O27: a fault leaves the count, and an instruction that completes adds one. -/
theorem stepsCountCompletedInstructions : Obligations.StepsCountCompletedInstructions := by
  intro s t hstep
  have hs := (step_cases s hstep).1
  rcases step_raises_or_goes hstep with ⟨k, w, a, rfl⟩ | hgo
  · exact ⟨fun _ => rfl, fun ht => absurd rfl ht⟩
  · have hnf := hgo.not_faulted hs
    have hhalt := hgo.halted_iff hs
    obtain ⟨_, hcount, hfault, _⟩ := hgo
    exact ⟨fun ht => absurd ht hnf, fun _ => ⟨hcount, hfault, hhalt⟩⟩

/-- Settles O29: a step that answers a next state was taken from Running, and from Running one always does. -/
theorem onlyRunningEnginesStep : Obligations.OnlyRunningEnginesStep := fun s =>
  ⟨fun hs _ hstep => hs (step_cases s hstep).1, step_running s⟩

/-- Settles O25: the fetch reads the number in the four bytes at `pc`, and the step runs what it decodes to. -/
theorem stepRunsDecodedInstruction : Obligations.StepRunsDecodedInstruction := by
  intro s i hs ha hi hdec
  obtain ⟨_, _, hfetch, _⟩ := fetchChecksThenReadsLittleEndian s
  exact step_eq_exec s hs (hfetch ha hi) hdec

/-! ### Control transfers (spec/40_dispatch.md R95, R100, spec/46_branch.md R160 to R164) -/

section Conditions

variable (rs1 rs2 : RegIdx)

theorem condEq_iff : condEq rs1 rs2 s = true ↔ s.readReg rs1 = s.readReg rs2 := decide_eq_true_iff

theorem condNe_iff : condNe rs1 rs2 s = true ↔ s.readReg rs1 ≠ s.readReg rs2 := decide_eq_true_iff

theorem condLtSigned_iff : condLtSigned rs1 rs2 s = true ↔ (s.readReg rs1).toInt < (s.readReg rs2).toInt :=
  decide_eq_true_iff

theorem condGeUnsigned_iff : condGeUnsigned rs1 rs2 s = true ↔ (s.readReg rs2).toNat ≤ (s.readReg rs1).toNat :=
  decide_eq_true_iff

end Conditions

/-- A branch is taken when the condition that its funct3 selects holds. -/
theorem branchTaken_iff : branchTaken w s ↔ opcode w = OpClass.branch.code ∧
    (funct3 w = 0b000 ∧ condEq (rs1Field w) (rs2Field w) s = true ∨
      funct3 w = 0b001 ∧ condNe (rs1Field w) (rs2Field w) s = true ∨
      funct3 w = 0b100 ∧ condLtSigned (rs1Field w) (rs2Field w) s = true ∨
      funct3 w = 0b101 ∧ condGeUnsigned (rs1Field w) (rs2Field w) s = true) := by
  have hmask (m : Word) (f3 : BitVec 3)
      (hm : m &&& 0x0000707F = m ∧ opcode m = OpClass.branch.code ∧ funct3 m = f3) :
      w &&& 0x0000707F = m ↔ opcode w = OpClass.branch.code ∧ funct3 w = f3 := by
    obtain ⟨hm, hop, hf3⟩ := hm
    rw [opcode_funct3_mask_iff hm, hop, hf3]
  rw [branchTaken, hmask 0x00000063 0b000 (by decide), hmask 0x00001063 0b001 (by decide),
    hmask 0x00004063 0b100 (by decide), hmask 0x00005063 0b101 (by decide)]
  simp only [condEq_iff, condNe_iff, condLtSigned_iff, condGeUnsigned_iff, rs1Field, rs2Field, and_or_left, and_assoc]

theorem branchTaken_opcode (h : branchTaken w s) : opcode w = OpClass.branch.code :=
  (branchTaken_iff.mp h).left

/-- A taken branch decodes. -/
theorem branchTaken_decodes (h : branchTaken w s) : ∃ i, decode w = .ok i := by
  obtain ⟨hop, hcond⟩ := branchTaken_iff.mp h
  rw [decode_of_class ((opClass?_eq_some_iff_code _ .branch).mpr hop), decodeClass, decodeBranch]
  rcases hcond with ⟨hf3, _⟩ | ⟨hf3, _⟩ | ⟨hf3, _⟩ | ⟨hf3, _⟩ <;> simp [hf3]

/-- A branch goes by its offset when it is taken, and else to the next instruction. -/
theorem exec_of_decodeBranch (hop : opcode w = OpClass.branch.code) (h : decodeBranch w = .ok i) (s : State) :
    ∃ c : Bool, (branchTaken w s ↔ c = true) ∧ exec i s = branchTo c (s.pc + immB w) s := by
  simp only [branchTaken_iff, hop, true_and]
  unfold decodeBranch at h
  split_ifs at h with beq bne blt bge
  · cases h
    exact ⟨condEq (rs1Field w) (rs2Field w) s, by simp [beq], rfl⟩
  · cases h
    exact ⟨condNe (rs1Field w) (rs2Field w) s, by simp [bne], rfl⟩
  · cases h
    exact ⟨condLtSigned (rs1Field w) (rs2Field w) s, by simp [blt], rfl⟩
  · cases h
    exact ⟨condGeUnsigned (rs1Field w) (rs2Field w) s, by simp [bge], rfl⟩

/-- An instruction that is neither a jump nor a branch goes on to the next one unless it faults. -/
theorem exec_pc_of_not_transfer (hj : Laws.classOf i ≠ .jal) (hb : Laws.classOf i ≠ .branch)
    (h : exec i s = .next t) (ht : t.status ≠ .faulted) : t.pc = s.seqPc := by
  cases i with
  | lb rd rs1 imm => exact loadInto_pc h ht
  | lh rd rs1 imm => exact loadInto_pc h ht
  | lw rd rs1 imm => exact loadInto_pc h ht
  | lbu rd rs1 imm => exact loadInto_pc h ht
  | lhu rd rs1 imm => exact loadInto_pc h ht
  | sb rs1 rs2 imm => exact storeAt_pc h ht
  | sh rs1 rs2 imm => exact storeAt_pc h ht
  | sw rs1 rs2 imm => exact storeAt_pc h ht
  | addi rd rs1 imm => exact retire_pc h
  | slli rd rs1 shamt ignored => exact retire_pc h
  | add rd rs1 rs2 => exact retire_pc h
  | sub rd rs1 rs2 f7 => exact retire_pc h
  | sll rd rs1 rs2 f7 => exact retire_pc h
  | jal rd imm => exact absurd rfl hj
  | beq rs1 rs2 imm => exact absurd rfl hb
  | bne rs1 rs2 imm => exact absurd rfl hb
  | blt rs1 rs2 imm => exact absurd rfl hb
  | bge rs1 rs2 imm => exact absurd rfl hb
  | lui rd imm => exact retire_pc h

/-- Where the instruction in a word goes: a JAL and a taken branch by their offsets, all else to the next one. -/
theorem exec_transfer_cases (hd : decode w = .ok i) (h : exec i s = .next t) :
    (opcode w = OpClass.jal.code ∧ wentTo (s.pc + immJ w) s t) ∨
    (branchTaken w s ∧ wentTo (s.pc + immB w) s t) ∨
    (opcode w ≠ OpClass.jal.code ∧ ¬branchTaken w s ∧ (t.status ≠ .faulted → t.pc = s.seqPc)) := by
  obtain ⟨c, hc, hclass⟩ := class_of_decode hd
  have hop := (opClass?_eq_some_iff_code _ c).mp hc
  by_cases hj : c = .jal
  · subst hj
    cases hclass
    obtain rfl := Host.Outcome.next.inj h
    exact .inl ⟨hop, wentTo_writeReg_complete ..⟩
  have hnj : opcode w ≠ OpClass.jal.code := fun e => hj (OpClass.code_injective (hop.symm.trans e))
  by_cases hb : c = .branch
  · subst hb
    obtain ⟨b, htaken, hexec⟩ := exec_of_decodeBranch hop hclass s
    obtain rfl := Host.Outcome.next.inj (hexec.symm.trans h)
    cases b with
    | true => exact .inr (.inl ⟨htaken.mpr rfl, wentTo_writeReg_complete 0 0 _⟩)
    | false => exact .inr (.inr ⟨hnj, by simp [htaken], fun _ => rfl⟩)
  · have hcls := classOf_of_decodeClass hclass
    have hnb : ¬branchTaken w s := fun e => hb (OpClass.code_injective (hop.symm.trans (branchTaken_opcode e)))
    exact .inr (.inr ⟨hnj, hnb, exec_pc_of_not_transfer (hcls ▸ hj) (hcls ▸ hb) h⟩)

/-- The word makes the run halt in `s`: a JAL or a taken branch with offset zero (spec/40_dispatch.md R100). -/
def selfTransfer (w : Word) (s : State) : Prop :=
  w &&& 0xFFFFF07F = 0x0000006F ∨ (branchTaken w s ∧ immB w = 0)

theorem selfTransfer_decodes (h : selfTransfer w s) : ∃ i, decode w = .ok i := by
  rcases h with hjal | ⟨htaken, _⟩
  · exact ⟨_, decode_of_class ((opClass?_eq_some_iff_code _ .jal).mpr (self_jal_mask_iff.mp hjal).1)⟩
  · exact branchTaken_decodes htaken

/-- A running instruction halts the run just when it goes by offset zero: `pc + 4` is never `pc`. -/
theorem exec_halted_iff (hs : s.status = .running) (hd : decode w = .ok i) (h : exec i s = .next t) :
    t.status = .halted ↔ selfTransfer w s := by
  rw [selfTransfer, self_jal_mask_iff]
  rcases exec_transfer_cases hd h with ⟨hop, hgo⟩ | ⟨htaken, hgo⟩ | ⟨hnj, hnb, hseq⟩
  · have hnb : ¬branchTaken w s := fun e => absurd (hop.symm.trans (branchTaken_opcode e)) (by decide)
    simp [hgo.halted_iff hs, hop, hnb]
  · have hnj : opcode w ≠ OpClass.jal.code := by
      rw [branchTaken_opcode htaken]
      decide
    simp [hgo.halted_iff hs, htaken, hnj]
  · refine iff_of_false (fun ht => ?_) (by simp [hnj, hnb])
    rcases (exec_effect s h).raises_or_goes with ⟨k, w', a, rfl⟩ | hgo
    · cases ht
    · exact seqPc_ne_pc s ((hseq (hgo.not_faulted hs)).symm.trans ((hgo.halted_iff hs).mp ht))

/-- Settles O28: a step that faults runs no transfer, and an instruction halts the run by offset zero alone. -/
theorem onlySelfTargetingTransfersHalt : Obligations.OnlySelfTargetingTransfersHalt := by
  intro s t hstep
  change _ ↔ ∃ w, s.fetch = .ok w ∧ selfTransfer w s
  obtain ⟨hs, ⟨k, hf, rfl⟩ | ⟨w, e, hf, hd, rfl⟩ | ⟨w, i, hf, hd, hexec⟩⟩ := step_cases s hstep
  · simp [hf]
  · have hno : ¬selfTransfer w s := fun hself => by
      obtain ⟨i, hi⟩ := selfTransfer_decodes hself
      cases hd.symm.trans hi
    simp [hf, hno]
  · simpa [hf] using exec_halted_iff hs hd hexec

/-- Settles O30: a word that decodes, that is no JAL and no taken branch, goes on to the next instruction. -/
theorem onlyJalAndTakenBranchesLeaveSequence : Obligations.OnlyJalAndTakenBranchesLeaveSequence := by
  intro s t w hstep ht hfetch hnj hnb
  obtain ⟨_, ⟨k, _, rfl⟩ | ⟨w', e, _, _, rfl⟩ | ⟨w', i, hw, hdec, hexec⟩⟩ := step_cases s hstep
  · exact absurd rfl ht
  · exact absurd rfl ht
  · obtain rfl : w' = w := Except.ok.inj (hw.symm.trans hfetch)
    rcases exec_transfer_cases hdec hexec with ⟨hop, _⟩ | ⟨htaken, _⟩ | ⟨_, _, hseq⟩
    · exact absurd (jal_mask_iff.mpr hop) hnj
    · exact absurd htaken hnb
    · exact hseq ht

/-! ### How runs end (spec/40_dispatch.md R102) -/

theorem reaches_keeps_inv (hr : Reaches s t) (h : s.Inv) : t.Inv := by
  induction hr with
  | refl => exact h
  | step _ hstep ih => exact stepKeepsInvariant _ _ ih hstep

/-- Settles O54: the invariant holds along a run, and it says when there is a record and what the record holds. -/
theorem endedRunsEndWellOrFaulted : Obligations.EndedRunsEndWellOrFaulted := by
  intro img s t hlaunch hreach hended
  have h : t.Inv := reaches_keeps_inv hreach (invariantHoldsAfterLaunch img s hlaunch)
  cases hst : t.status with
  | running => exact absurd hst hended
  | halted => exact .inl ⟨hst, h.fault_none (by simp [hst])⟩
  | faulted =>
    obtain ⟨f, hf⟩ := Option.isSome_iff_exists.mp (h.record.mpr hst)
    exact .inr ⟨rfl, f, hf, h.precise f hf⟩

end Sys2Proof.Machine
end

section
/-! PROOFS. Family 41_load: the rules of the five loads, from the decoder of their class and the load they share. -/

namespace Sys2Proof

/-! ### Decoding a load (spec/30_encoding.md R63, R78) -/

/-- A row's words decode to a load if `decodeLoad` gives that load for the row's funct3. -/
theorem loadDecodes_of_decodeLoad {mk : RegIdx → RegIdx → BitVec 12 → Instr} {m : Word} {f3 : BitVec 3}
    (hop : opcode m = OpClass.load.code) (hf3 : funct3 m = f3)
    (h : ∀ w, funct3 w = f3 → decodeLoad w = .ok (mk (rdField w) (rs1Field w) (immIField w))) :
    Machine.loadDecodes mk m := by
  intro w hw
  obtain ⟨hopw, hf3w⟩ := opcode_funct3_of_mask w m hw
  have hclass : opClass? (opcode w) = some .load := (opClass?_eq_some_iff_code _ _).mpr (hopw.trans hop)
  exact (decode_of_class hclass).trans (h w (hf3w.trans hf3))

/-! ### Extending the number read (spec/00_scope.md R10) -/

theorem sext_ofNat {k : Nat} (hk : k ≤ 32) (v : Nat) :
    sext k (BitVec.ofNat 32 v) = (BitVec.ofNat k v).signExtend 32 := by
  rw [sext, BitVec.setWidth_ofNat_of_le hk]

/-- A number of `k` bits is its own zero extension. -/
theorem zext_ofNat {k v : Nat} (hk : k ≤ 32) (hv : v < 2 ^ k) : zext k (BitVec.ofNat 32 v) = BitVec.ofNat 32 v := by
  rw [zext, BitVec.setWidth_ofNat_of_le hk, BitVec.setWidth_ofNat_of_le_of_lt hk hv]

end Sys2Proof

namespace Sys2Proof.Machine

/-! ### Writing a register and going on (spec/40_dispatch.md R95 to R98) -/

section Retire

variable {s : State}

theorem regsKeptExcept_writeReg_complete (rd : RegIdx) (v n : Word) :
    regsKeptExcept rd s ((s.writeReg rd v).complete n) := fun _ hr => readReg_writeReg_other _ _ _ _ hr

theorem wentOn_writeReg_complete (rd : RegIdx) (v : Word) : wentOn s ((s.writeReg rd v).complete s.seqPc) := by
  simp [wentOn, State.seqPc]

/-- The result and the frame of an instruction that writes `rd` and goes on. -/
theorem retire_spec (rd : RegIdx) (v : Word) :
    ∃ t, retire rd v s = .next t ∧ t.readReg rd = (if rd = 0 then 0 else v) ∧
      regsKeptExcept rd s t ∧ memoryKept s t ∧ wentOn s t :=
  ⟨_, rfl, readReg_writeReg_same .., regsKeptExcept_writeReg_complete _ _ _, memoryKept_writeReg_complete ..,
    wentOn_writeReg_complete ..⟩

end Retire

/-! ### The rules of a load, from the operation it runs (spec/41_load.md R110) -/

/-- `mk` builds the instructions that run as a load of `n` bytes with the extension `ext`. -/
def runsAsLoad (mk : RegIdx → RegIdx → BitVec 12 → Instr) (n : Width) (ext : Word → Word) : Prop :=
  ∀ rd rs1 imm s, exec (mk rd rs1 imm) s = loadInto (encode (mk rd rs1 imm)) n ext rd (effAddr rs1 imm s) s

theorem runsAsLoad_lb : runsAsLoad .lb .byte (sext 8) := fun _ _ _ _ => rfl
theorem runsAsLoad_lh : runsAsLoad .lh .half (sext 16) := fun _ _ _ _ => rfl
theorem runsAsLoad_lw : runsAsLoad .lw .word id := fun _ _ _ _ => rfl
theorem runsAsLoad_lbu : runsAsLoad .lbu .byte (zext 8) := fun _ _ _ _ => rfl
theorem runsAsLoad_lhu : runsAsLoad .lhu .half (zext 16) := fun _ _ _ _ => rfl

section Rules

variable {mk : RegIdx → RegIdx → BitVec 12 → Instr} {n : Width} {ext : Word → Word}

theorem runsAsLoad.misalignedRule (h : runsAsLoad mk n ext) : loadMisalignedRule mk n.bytes := by
  rintro rd rs1 imm s _ rfl hmis
  exact (h rd rs1 imm s).trans (loadInto_problem s (accessProblem_of_misaligned hmis))

/-- A load follows the rule of any `extend` that agrees with its extension on the numbers its bytes can hold. -/
theorem runsAsLoad.alignedRule (h : runsAsLoad mk n ext) {extend : Nat → Word}
    (hext : ∀ v, v < 2 ^ (8 * n.bytes) → ext (BitVec.ofNat 32 v) = extend v) :
    loadAlignedRule mk n.bytes extend := by
  rintro rd rs1 imm s _ rfl ha
  rw [h rd rs1 imm s]
  constructor
  · intro hout
    exact loadInto_problem s (accessProblem_of_outside ha hout)
  · intro hin
    have hok : s.accessOk (effAddr rs1 imm s) n := accessOk_of_inside ha hin
    rw [loadInto_ok s (accessProblem_of_accessOk hok), readLE_of_accessOk hok, hext _ (bytesNat_lt _ _)]
    exact retire_spec rd _

end Rules

/-! ### The loads (spec/41_load.md R111 to R115) -/

/-- Settles O6, by the shared load at one byte, which no address misaligns. -/
theorem lbLoadsSignExtendedByte : Obligations.LbLoadsSignExtendedByte :=
  ⟨loadDecodes_of_decodeLoad (f3 := 0b000) rfl rfl fun w hf3 => by simp [decodeLoad, hf3],
    runsAsLoad_lb.alignedRule fun v _ => sext_ofNat (by decide) v⟩

/-- Settles O7, by the shared load at two bytes. -/
theorem lhLoadsSignExtendedHalfword : Obligations.LhLoadsSignExtendedHalfword :=
  ⟨loadDecodes_of_decodeLoad (f3 := 0b001) rfl rfl fun w hf3 => by simp [decodeLoad, hf3],
    runsAsLoad_lh.misalignedRule, runsAsLoad_lh.alignedRule fun v _ => sext_ofNat (by decide) v⟩

/-- Settles O8, by the shared load at four bytes, which fill the register. -/
theorem lwLoadsWord : Obligations.LwLoadsWord :=
  ⟨loadDecodes_of_decodeLoad (f3 := 0b010) rfl rfl fun w hf3 => by simp [decodeLoad, hf3],
    runsAsLoad_lw.misalignedRule, runsAsLoad_lw.alignedRule fun _ _ => rfl⟩

/-- Settles O9, by the shared load at one byte, whose number is below `2 ^ 8`. -/
theorem lbuLoadsZeroExtendedByte : Obligations.LbuLoadsZeroExtendedByte :=
  ⟨loadDecodes_of_decodeLoad (f3 := 0b100) rfl rfl fun w hf3 => by simp [decodeLoad, hf3],
    runsAsLoad_lbu.alignedRule fun _ hv => zext_ofNat (by decide) hv⟩

/-- Settles O10, by the shared load at two bytes, whose number is below `2 ^ 16`. -/
theorem lhuLoadsZeroExtendedHalfword : Obligations.LhuLoadsZeroExtendedHalfword :=
  ⟨loadDecodes_of_decodeLoad (f3 := 0b101) rfl rfl fun w hf3 => by simp [decodeLoad, hf3],
    runsAsLoad_lhu.misalignedRule, runsAsLoad_lhu.alignedRule fun _ hv => zext_ofNat (by decide) hv⟩

end Sys2Proof.Machine
end

section
/-! PROOFS. Family 42_store: the rules of the three stores, from the decoder of their class and the store they share. -/

namespace Sys2Proof

/-! ### Decoding a store (spec/30_encoding.md R64, R78) -/

/-- A row's words decode to a store if `decodeStore` gives that store for the row's funct3. -/
theorem storeDecodes_of_decodeStore {mk : RegIdx → RegIdx → BitVec 12 → Instr} {m : Word} {f3 : BitVec 3}
    (hop : opcode m = OpClass.store.code) (hf3 : funct3 m = f3)
    (h : ∀ w, funct3 w = f3 → decodeStore w = .ok (mk (rs1Field w) (rs2Field w) (immSField w))) :
    Machine.storeDecodes mk m := by
  intro w hw
  obtain ⟨hopw, hf3w⟩ := opcode_funct3_of_mask w m hw
  have hclass : opClass? (opcode w) = some .store := (opClass?_eq_some_iff_code _ _).mpr (hopw.trans hop)
  exact (decode_of_class hclass).trans (h w (hf3w.trans hf3))

end Sys2Proof

namespace Sys2Proof.Machine

/-! ### A store that passes its checks (spec/42_store.md R120) -/

/-- The bytes and the frame of a store that passes its checks. -/
theorem storeAt_spec {s : State} {ea : Word} {n : Width} (hok : s.accessOk ea n) (w v : Word) :
    ∃ t, storeAt w n ea v s = .next t ∧
      (Memory.wf s.mem = true →
        ∀ j, j < n.bytes → t.byteAt (ea.toNat + j) = some (v.extractLsb' (8 * j) 8)) ∧
      regsKept s t ∧ memoryKeptOutside ea.toNat n.bytes s t ∧ wentOn s t := by
  have hstore := storeAt_ok s (w := w) (v := v) (accessProblem_of_accessOk hok)
  obtain ⟨hframe, hregs⟩ := storeAt_keeps hstore
  refine ⟨_, hstore, fun hwf j hj => byteAt_store_inside hok hwf v hj, hregs, hframe, ?_⟩
  exact ⟨rfl, rfl, if_neg (seqPc_ne_pc s), rfl⟩

/-! ### The rules of a store, from the operation it runs -/

/-- `mk` builds the instructions that run as a store of the low `n` bytes of `x[rs2]`. -/
def runsAsStore (mk : RegIdx → RegIdx → BitVec 12 → Instr) (n : Width) : Prop :=
  ∀ rs1 rs2 imm s, exec (mk rs1 rs2 imm) s =
    storeAt (encode (mk rs1 rs2 imm)) n (effAddr rs1 imm s) (s.readReg rs2) s

theorem runsAsStore_sb : runsAsStore .sb .byte := fun _ _ _ _ => rfl
theorem runsAsStore_sh : runsAsStore .sh .half := fun _ _ _ _ => rfl
theorem runsAsStore_sw : runsAsStore .sw .word := fun _ _ _ _ => rfl

section StoreRules

variable {mk : RegIdx → RegIdx → BitVec 12 → Instr} {n : Width}

theorem runsAsStore.misalignedRule (h : runsAsStore mk n) : storeMisalignedRule mk n.bytes := by
  rintro rs1 rs2 imm s _ rfl hmis
  exact (h rs1 rs2 imm s).trans (storeAt_problem s (accessProblem_of_misaligned hmis))

theorem runsAsStore.alignedRule (h : runsAsStore mk n) : storeAlignedRule mk n.bytes := by
  rintro rs1 rs2 imm s _ rfl ha
  rw [h rs1 rs2 imm s]
  constructor
  · intro hout
    exact storeAt_problem s (accessProblem_of_outside ha hout)
  · intro hin
    exact storeAt_spec (accessOk_of_inside ha hin) _ _

end StoreRules

/-! ### The stores (spec/42_store.md R121 to R123) -/

/-- Settles O11, by the shared store at one byte, which no address misaligns. -/
theorem sbStoresLowByte : Obligations.SbStoresLowByte :=
  ⟨storeDecodes_of_decodeStore (f3 := 0b000) rfl rfl fun w hf3 => by simp [decodeStore, hf3],
    runsAsStore_sb.alignedRule⟩

/-- Settles O12, by the shared store at two bytes. -/
theorem shStoresLowHalfword : Obligations.ShStoresLowHalfword :=
  ⟨storeDecodes_of_decodeStore (f3 := 0b001) rfl rfl fun w hf3 => by simp [decodeStore, hf3],
    runsAsStore_sh.misalignedRule, runsAsStore_sh.alignedRule⟩

/-- Settles O13, by the shared store at four bytes. -/
theorem swStoresWord : Obligations.SwStoresWord :=
  ⟨storeDecodes_of_decodeStore (f3 := 0b010) rfl rfl fun w hf3 => by simp [decodeStore, hf3],
    runsAsStore_sw.misalignedRule, runsAsStore_sw.alignedRule⟩

end Sys2Proof.Machine
end

section
/-! PROOFS. Family 43_arith_imm: the two instructions with an immediate operand, from the decoder of a row with opcode
and funct3 and the write of one register; and the sample words of each format. -/

namespace Sys2Proof

variable {w m : Word}

/-! ### Decoding a row with opcode and funct3 (spec/30_encoding.md R77, R78) -/

/-- A word of a row with opcode and funct3 goes to the row's class with the row's funct3. -/
theorem decode_of_row {c : OpClass} {f3 : BitVec 3} (hop : opcode m = c.code) (hf3 : funct3 m = f3)
    (hw : w &&& 0x0000707F = m) : decode w = decodeClass c w ∧ funct3 w = f3 := by
  obtain ⟨hopw, hf3w⟩ := opcode_funct3_of_mask w m hw
  exact ⟨decode_of_class ((opClass?_eq_some_iff_code _ _).mpr (hopw.trans hop)), hf3w.trans hf3⟩

theorem decode_addi (hw : w &&& 0x0000707F = 0x00000013) :
    decode w = .ok (.addi (rdField w) (rs1Field w) (immIField w)) := by
  obtain ⟨hclass, hf3⟩ := decode_of_row (c := .arithImm) (f3 := 0b000) rfl rfl hw
  rw [hclass, decodeClass, decodeArithImm, if_pos hf3]

theorem decode_slli (hw : w &&& 0x0000707F = 0x00001013) :
    decode w = .ok (.slli (rdField w) (rs1Field w) (shamtField w) (funct7 w)) := by
  obtain ⟨hclass, hf3⟩ := decode_of_row (c := .arithImm) (f3 := 0b001) rfl rfl hw
  have hne : funct3 w ≠ 0b000 := hf3 ▸ by decide
  rw [hclass, decodeClass, decodeArithImm, if_neg hne, if_pos hf3]

/-- Settles O3: the decoder evaluates to the instruction on each word. -/
theorem sampleWordsDecode : Obligations.SampleWordsDecode :=
  ⟨rfl, rfl, rfl, rfl, rfl, rfl, rfl, rfl⟩

end Sys2Proof

namespace Sys2Proof.Machine

/-! ### Instructions that write one register (spec/43_arith_imm.md R130, R131) -/

/-- An instruction that runs as the write of `value` to `rd` has the result and the frame of one. -/
theorem writesRegister_of_retire {i : Instr} {rd : RegIdx} {value : State → Word}
    (h : ∀ s, exec i s = retire rd (value s) s) : writesRegister i rd value := fun s => by
  rw [h s]
  exact retire_spec rd (value s)

/-- A left shift is a product modulo `2 ^ 32` (spec/00_scope.md R11). -/
theorem shiftLeft_eq_ofNat_mul (a : Word) (n : BitVec 5) :
    shiftLeft a n = BitVec.ofNat 32 (a.toNat * 2 ^ n.toNat) := by
  apply BitVec.eq_of_toNat_eq
  rw [shiftLeft, BitVec.toNat_shiftLeft, Nat.shiftLeft_eq, BitVec.toNat_ofNat]

/-- Settles O14: ADDI runs as the write of the sum. -/
theorem addiAddsImmediate : Obligations.AddiAddsImmediate :=
  ⟨fun _ => decode_addi, fun _ _ _ => writesRegister_of_retire fun _ => rfl⟩

/-- Settles O15: SLLI runs as the write of the shifted value, which is the product. -/
theorem slliShiftsByImmediate : Obligations.SlliShiftsByImmediate :=
  ⟨fun _ => decode_slli, fun rd _ _ _ => writesRegister_of_retire fun s =>
    congrArg (fun v => retire rd v s) (shiftLeft_eq_ofNat_mul _ _)⟩

end Sys2Proof.Machine
end

section
/-! PROOFS. Family 44_arith_reg: the three instructions on two registers. ADD and SUB share one row with opcode and
funct3, which funct7 divides; SLL is a row of its own. -/

namespace Sys2Proof

variable {w : Word}

/-! ### Decoding (spec/30_encoding.md R78 to R80) -/

/-- The row that ADD and SUB share: funct7 zero selects ADD and any other SUB (R79). -/
theorem decode_add_sub_row (hw : w &&& 0x0000707F = 0x00000033) :
    decode w = if funct7 w = 0 then .ok (.add (rdField w) (rs1Field w) (rs2Field w))
      else .ok (.sub (rdField w) (rs1Field w) (rs2Field w) (funct7 w)) := by
  obtain ⟨hclass, hf3⟩ := decode_of_row (c := .arithReg) (f3 := 0b000) rfl rfl hw
  rw [hclass, decodeClass, decodeArithReg, if_pos hf3]

/-- ADD's mask puts a word in the shared row and makes its funct7 zero. -/
theorem decode_add (hw : w &&& 0xFE00707F = 0x00000033) :
    decode w = .ok (.add (rdField w) (rs1Field w) (rs2Field w)) := by
  obtain ⟨hop, hf3, hf7⟩ := opcode_funct3_funct7_of_mask w _ hw
  have hrow : w &&& 0x0000707F = 0x00000033 := (opcode_funct3_mask_iff rfl).mpr ⟨hop, hf3⟩
  have hzero : funct7 w = 0 := hf7
  rw [decode_add_sub_row hrow, if_pos hzero]

theorem decode_sub (hw : w &&& 0x0000707F = 0x00000033) (hf7 : funct7 w ≠ 0) :
    decode w = .ok (.sub (rdField w) (rs1Field w) (rs2Field w) (funct7 w)) := by
  rw [decode_add_sub_row hw, if_neg hf7]

theorem decode_sll (hw : w &&& 0x0000707F = 0x00001033) :
    decode w = .ok (.sll (rdField w) (rs1Field w) (rs2Field w) (funct7 w)) := by
  obtain ⟨hclass, hf3⟩ := decode_of_row (c := .arithReg) (f3 := 0b001) rfl rfl hw
  have hne : funct3 w ≠ 0b000 := hf3 ▸ by decide
  rw [hclass, decodeClass, decodeArithReg, if_neg hne, if_pos hf3]

end Sys2Proof

namespace Sys2Proof.Machine

/-! ### The instructions (spec/44_arith_reg.md R140 to R142) -/

/-- The low five bits of `x[rs2]` are its value modulo 32. -/
theorem shiftAmount_toNat (rs2 : RegIdx) (s : State) :
    (shiftAmount rs2 s).toNat = (s.readReg rs2).toNat % 32 := BitVec.toNat_setWidth 5 (s.readReg rs2)

/-- A left shift by a register is a product modulo `2 ^ 32`. -/
theorem shiftLeft_shiftAmount (a : Word) (rs2 : RegIdx) (s : State) :
    shiftLeft a (shiftAmount rs2 s) = BitVec.ofNat 32 (a.toNat * 2 ^ ((s.readReg rs2).toNat % 32)) := by
  rw [shiftLeft_eq_ofNat_mul, shiftAmount_toNat]

/-- Settles O16: ADD runs as the write of the sum. -/
theorem addAddsRegisters : Obligations.AddAddsRegisters :=
  ⟨fun _ => decode_add, fun _ _ _ => writesRegister_of_retire fun _ => rfl⟩

/-- Settles O17: SUB runs as the write of the difference, whatever its funct7. -/
theorem subSubtractsRegisters : Obligations.SubSubtractsRegisters :=
  ⟨fun _ => decode_sub, fun _ _ _ _ => writesRegister_of_retire fun _ => rfl⟩

/-- Settles O18: SLL runs as the write of the shifted value, which is the product. -/
theorem sllShiftsByRegister : Obligations.SllShiftsByRegister :=
  ⟨fun _ => decode_sll, fun rd _ _ _ => writesRegister_of_retire fun s =>
    congrArg (fun v => retire rd v s) (shiftLeft_shiftAmount _ _ s)⟩

end Sys2Proof.Machine
end

section
/-! PROOFS. Family 45_jal: the instruction that writes one register and goes to a target of its own. -/

namespace Sys2Proof

/-- JAL's mask tests the opcode alone, and its class has no funct3 (spec/30_encoding.md R78). -/
theorem decode_jal {w : Word} (hw : w &&& 0x0000007F = 0x0000006F) :
    decode w = .ok (.jal (rdField w) (immJField w)) :=
  decode_of_class ((opClass?_eq_some_iff_code _ .jal).mpr (jal_mask_iff.mp hw))

end Sys2Proof

namespace Sys2Proof.Machine

/-- The rule of a fetch that faults, in every state (spec/20_memory.md R48). -/
theorem fetchFaultsAt_always (t : State) : fetchFaultsAt t := by
  obtain ⟨_, _, _, hfaults⟩ := fetchChecksThenReadsLittleEndian t
  exact hfaults

/-- JAL runs as the write of its own address to `rd`, completed at the target (spec/45_jal.md R150). -/
theorem exec_jal (rd : RegIdx) (imm : BitVec 21) (s : State) :
    exec (.jal rd imm) s = .next ((s.writeReg rd s.pc).complete (s.pc + imm.signExtend 32)) := rfl

/-- Settles O20: the state after a JAL is a register write completed at the target, and its next fetch is checked as
any other. -/
theorem jalLinksOwnAddress : Obligations.JalLinksOwnAddress := by
  refine ⟨fun _ => decode_jal, fun rd imm s => ⟨_, exec_jal rd imm s, ?_, ?_, ?_, ?_, ?_⟩⟩
  · exact readReg_writeReg_same s rd s.pc
  · exact wentTo_writeReg_complete ..
  · exact regsKeptExcept_writeReg_complete rd s.pc _
  · exact memoryKept_writeReg_complete ..
  · exact fetchFaultsAt_always _

end Sys2Proof.Machine
end

section
/-! PROOFS. Family 46_branch: the rule of the four branches, from the decoder of their class, the transfer they share and
the condition of each. -/

namespace Sys2Proof

/-! ### Decoding a branch (spec/30_encoding.md R65, R78) -/

/-- A row's words decode to a branch if `decodeBranch` gives that branch for the row's funct3. -/
theorem decode_of_decodeBranch {mk : RegIdx → RegIdx → BitVec 13 → Instr} {m : Word} {f3 : BitVec 3}
    (hop : opcode m = OpClass.branch.code) (hf3 : funct3 m = f3)
    (h : ∀ w, funct3 w = f3 → decodeBranch w = .ok (mk (rs1Field w) (rs2Field w) (immBField w)))
    (w : Word) (hw : w &&& 0x0000707F = m) :
    decode w = .ok (mk (rs1Field w) (rs2Field w) (immBField w)) := by
  obtain ⟨hclass, hf3w⟩ := decode_of_row hop hf3 hw
  exact hclass.trans (h w hf3w)

theorem decode_beq (w : Word) (hw : w &&& 0x0000707F = 0x00000063) :
    decode w = .ok (.beq (rs1Field w) (rs2Field w) (immBField w)) :=
  decode_of_decodeBranch (f3 := 0b000) rfl rfl (fun w hf3 => by simp [decodeBranch, hf3]) w hw

theorem decode_bne (w : Word) (hw : w &&& 0x0000707F = 0x00001063) :
    decode w = .ok (.bne (rs1Field w) (rs2Field w) (immBField w)) :=
  decode_of_decodeBranch (f3 := 0b001) rfl rfl (fun w hf3 => by simp [decodeBranch, hf3]) w hw

theorem decode_blt (w : Word) (hw : w &&& 0x0000707F = 0x00004063) :
    decode w = .ok (.blt (rs1Field w) (rs2Field w) (immBField w)) :=
  decode_of_decodeBranch (f3 := 0b100) rfl rfl (fun w hf3 => by simp [decodeBranch, hf3]) w hw

theorem decode_bge (w : Word) (hw : w &&& 0x0000707F = 0x00005063) :
    decode w = .ok (.bge (rs1Field w) (rs2Field w) (immBField w)) :=
  decode_of_decodeBranch (f3 := 0b101) rfl rfl (fun w hf3 => by simp [decodeBranch, hf3]) w hw

end Sys2Proof

namespace Sys2Proof.Machine

/-! ### The transfer that the branches share (spec/46_branch.md R160) -/

/-- An instruction that only goes to `n`. -/
theorem wentTo_complete (s : State) (n : Word) : wentTo n s (s.complete n) := ⟨rfl, rfl, rfl, rfl⟩

/-- Going to the next instruction never halts the run: `pc + 4` is not `pc`. -/
theorem wentOn_complete_seqPc (s : State) : wentOn s (s.complete s.seqPc) :=
  ⟨rfl, rfl, if_neg (seqPc_ne_pc s), rfl⟩

/-- Where a branch goes, taken or not, and its frame. -/
theorem branchTo_spec (c : Bool) (target : Word) (s : State) :
    ∃ t, branchTo c target s = .next t ∧ (c = true → wentTo target s t) ∧ (¬c = true → wentOn s t) ∧
      regsKept s t ∧ memoryKept s t := by
  refine ⟨_, rfl, ?_, ?_, fun _ => rfl, branchTo_memoryKept rfl⟩
  · rintro rfl
    exact wentTo_complete s target
  · intro hc
    rw [if_neg hc]
    exact wentOn_complete_seqPc s

/-- `mk` builds the instructions that run as a branch on the condition `c`. -/
def runsAsBranch (mk : RegIdx → RegIdx → BitVec 13 → Instr) (c : RegIdx → RegIdx → State → Bool) : Prop :=
  ∀ rs1 rs2 imm s, exec (mk rs1 rs2 imm) s = branchTo (c rs1 rs2 s) (branchTarget imm s) s

theorem runsAsBranch_beq : runsAsBranch .beq condEq := fun _ _ _ _ => rfl
theorem runsAsBranch_bne : runsAsBranch .bne condNe := fun _ _ _ _ => rfl
theorem runsAsBranch_blt : runsAsBranch .blt condLtSigned := fun _ _ _ _ => rfl
theorem runsAsBranch_bge : runsAsBranch .bge condGeUnsigned := fun _ _ _ _ => rfl

/-- A branch follows the rule of any `cond` that says of the two registers' values when its condition holds. -/
theorem runsAsBranch.rule {mk : RegIdx → RegIdx → BitVec 13 → Instr} {c : RegIdx → RegIdx → State → Bool} {m : Word}
    {cond : Word → Word → Prop} (h : runsAsBranch mk c)
    (hcond : ∀ rs1 rs2 s, c rs1 rs2 s = true ↔ cond (s.readReg rs1) (s.readReg rs2))
    (hdec : ∀ w : Word, w &&& 0x0000707F = m → decode w = .ok (mk (rs1Field w) (rs2Field w) (immBField w))) :
    branchRule mk m cond := by
  refine ⟨hdec, fun rs1 rs2 imm s => ?_⟩
  rw [h rs1 rs2 imm s, ← hcond]
  obtain ⟨t, hexec, htaken, hnot, hregs, hmem⟩ := branchTo_spec (c rs1 rs2 s) (branchTarget imm s) s
  exact ⟨t, hexec, htaken, hnot, hregs, hmem, fetchFaultsAt_always t⟩

/-! ### The branches (spec/46_branch.md R161 to R164) -/

/-- Settles O21: BEQ runs as the branch on equality. -/
theorem beqBranchesIfEqual : Obligations.BeqBranchesIfEqual :=
  runsAsBranch_beq.rule (fun rs1 rs2 _ => condEq_iff rs1 rs2) decode_beq

/-- Settles O22: BNE runs as the branch on inequality. -/
theorem bneBranchesIfNotEqual : Obligations.BneBranchesIfNotEqual :=
  runsAsBranch_bne.rule (fun rs1 rs2 _ => condNe_iff rs1 rs2) decode_bne

/-- Settles O23: BLT runs as the branch on the signed comparison. -/
theorem bltBranchesIfSignedLess : Obligations.BltBranchesIfSignedLess :=
  runsAsBranch_blt.rule (fun rs1 rs2 _ => condLtSigned_iff rs1 rs2) decode_blt

/-- Settles O24: BGE runs as the branch on the unsigned comparison. -/
theorem bgeBranchesIfUnsignedNotLess : Obligations.BgeBranchesIfUnsignedNotLess :=
  runsAsBranch_bge.rule (fun rs1 rs2 _ => condGeUnsigned_iff rs1 rs2) decode_bge

end Sys2Proof.Machine
end

section
/-! PROOFS. Family 47_lui: the instruction that writes a constant of its own, its payload in the upper bits. -/

namespace Sys2Proof

/-- LUI's mask tests the opcode alone, and its class has no funct3 (spec/30_encoding.md R78). -/
theorem decode_lui {w : Word} (hw : w &&& 0x0000007F = 0x00000037) :
    decode w = .ok (.lui (rdField w) (immUField w)) := by
  have hop : opcode w = OpClass.lui.code := opcode_of_mask w _ hw
  exact decode_of_class ((opClass?_eq_some_iff_code _ .lui).mpr hop)

/-- The U immediate, said as a word: the payload times `2 ^ 12` (spec/30_encoding.md R72). -/
theorem upperImm_eq_ofNat_mul (imm : BitVec 20) : upperImm imm = BitVec.ofNat 32 (imm.toNat * 2 ^ 12) := by
  rw [← upperImm_toNat, BitVec.ofNat_toNat, BitVec.setWidth_eq]

end Sys2Proof

namespace Sys2Proof.Machine

/-- LUI runs as the write of its U immediate to `rd` (spec/47_lui.md R170). -/
theorem exec_lui (rd : RegIdx) (imm : BitVec 20) (s : State) :
    exec (.lui rd imm) s = retire rd (upperImm imm) s := rfl

/-- Settles O19: LUI runs as the write of its U immediate, which is the payload times `2 ^ 12`. -/
theorem luiLoadsUpperImmediate : Obligations.LuiLoadsUpperImmediate :=
  ⟨fun _ => decode_lui, fun rd imm => writesRegister_of_retire fun s => by
    rw [exec_lui, upperImm_eq_ofNat_mul]⟩

end Sys2Proof.Machine
end

section
/-! PROOFS. Family 60_exceptions: which words are handled, that a fault is precise, and what its record says of the first
fault of a step. -/

namespace Sys2Proof

/-! ### Handled words (spec/30_encoding.md R76, R78, R81) -/

/-- The funct3 values that a class has a case for; JAL and LUI do not look at it (spec/30_encoding.md R78). -/
def OpClass.hasCase (c : OpClass) (f3 : BitVec 3) : Prop :=
  match c with
  | .load => f3 ∈ [0b000#3, 0b001#3, 0b010#3, 0b100#3, 0b101#3]
  | .store => f3 ∈ [0b000#3, 0b001#3, 0b010#3]
  | .arithImm => f3 ∈ [0b000#3, 0b001#3]
  | .arithReg => f3 ∈ [0b000#3, 0b001#3]
  | .jal => True
  | .branch => f3 ∈ [0b000#3, 0b001#3, 0b100#3, 0b101#3]
  | .lui => True

/-- A class's handler answers an instruction just when it has a case for the word's funct3. -/
theorem decodeClass_ok_iff (c : OpClass) (w : Word) : (∃ i, decodeClass c w = .ok i) ↔ c.hasCase (funct3 w) := by
  cases c with
  | load => simp only [decodeClass, decodeLoad, OpClass.hasCase]; split_ifs <;> simp_all
  | store => simp only [decodeClass, decodeStore, OpClass.hasCase]; split_ifs <;> simp_all
  | arithImm => simp only [decodeClass, decodeArithImm, OpClass.hasCase]; split_ifs <;> simp_all
  | arithReg => simp only [decodeClass, decodeArithReg, OpClass.hasCase]; split_ifs <;> simp_all
  | jal => exact iff_of_true ⟨_, rfl⟩ trivial
  | branch => simp only [decodeClass, decodeBranch, OpClass.hasCase]; split_ifs <;> simp_all
  | lui => exact iff_of_true ⟨_, rfl⟩ trivial

/-- A word is handled just when its opcode is a class's and the class has a case for its funct3. -/
theorem handled_iff_hasCase (w : Word) :
    Machine.handled w ↔ ∃ c : OpClass, opcode w = c.code ∧ c.hasCase (funct3 w) := by
  constructor
  · rintro (h | h | h | h | h | h | h)
    · exact ⟨.load, h⟩
    · exact ⟨.store, h⟩
    · exact ⟨.arithImm, h⟩
    · exact ⟨.arithReg, h⟩
    · exact ⟨.jal, h, trivial⟩
    · exact ⟨.branch, h⟩
    · exact ⟨.lui, h, trivial⟩
  · rintro ⟨c, hop, hf3⟩
    cases c with
    | load => exact .inl ⟨hop, hf3⟩
    | store => exact .inr (.inl ⟨hop, hf3⟩)
    | arithImm => exact .inr (.inr (.inl ⟨hop, hf3⟩))
    | arithReg => exact .inr (.inr (.inr (.inl ⟨hop, hf3⟩)))
    | jal => exact .inr (.inr (.inr (.inr (.inl hop))))
    | branch => exact .inr (.inr (.inr (.inr (.inr (.inl ⟨hop, hf3⟩)))))
    | lui => exact .inr (.inr (.inr (.inr (.inr (.inr hop)))))

/-- The handled words are those that decode. -/
theorem handled_iff_decodes (w : Word) : Machine.handled w ↔ ∃ i, decode w = .ok i := by
  rw [handled_iff_hasCase]
  constructor
  · rintro ⟨c, hop, hcase⟩
    rw [decode_of_class ((opClass?_eq_some_iff_code _ c).mpr hop)]
    exact (decodeClass_ok_iff c w).mpr hcase
  · rintro ⟨i, hdec⟩
    obtain ⟨c, hc, hclass⟩ := class_of_decode hdec
    exact ⟨c, (opClass?_eq_some_iff_code _ c).mp hc, (decodeClass_ok_iff c w).mp ⟨i, hclass⟩⟩

end Sys2Proof

namespace Sys2Proof.Machine

variable {s t : State} {w : Word} {i : Instr}

/-- Settles O5: an unhandled word does not decode, so the step raises its fault; a handled one decodes and is run. -/
theorem unhandledWordsRaiseIllegalInstruction : Obligations.UnhandledWordsRaiseIllegalInstruction := by
  intro s w hs hfetch
  rw [handled_iff_decodes]
  constructor
  · intro hnot
    cases hdec : decode w with
    | error e => exact step_of_decode_error s hs hfetch hdec
    | ok i => exact absurd ⟨i, hdec⟩ hnot
  · rintro ⟨i, hdec⟩
    exact ⟨i, hdec, step_eq_exec s hs hfetch hdec⟩

/-- Settles O34: a step that does not complete raises one fault, and a faulted engine takes no step. -/
theorem faultsArePrecise : Obligations.FaultsArePrecise := by
  intro s t hstep ht
  constructor
  · rcases step_raises_or_goes hstep with ⟨k, w, a, rfl⟩ | hgo
    · exact ⟨k, w, a, rfl⟩
    · exact absurd ht (hgo.not_faulted (step_cases s hstep).1)
  · exact (onlyRunningEnginesStep t).1 (by simp [ht])

/-! ### The fault of an instruction (spec/60_exceptions.md R187 to R191) -/

/-- A word that decodes as a load runs as one, at the address and of the width that its fields give. -/
theorem exec_of_decodeLoad (h : decodeLoad w = .ok i) :
    ∃ (n : Width) (ext : Word → Word), n.bytes = accessBytes w ∧
      ∀ s, exec i s = loadInto (encode i) n ext (rdField w) (s.readReg (rs1Field w) + immI w) s := by
  unfold decodeLoad at h
  split_ifs at h with hb hh hw hbu hhu
  · cases h
    exact ⟨.byte, sext 8, by rw [accessBytes_eq, hb]; rfl, fun _ => rfl⟩
  · cases h
    exact ⟨.half, sext 16, by rw [accessBytes_eq, hh]; rfl, fun _ => rfl⟩
  · cases h
    exact ⟨.word, id, by rw [accessBytes_eq, hw]; rfl, fun _ => rfl⟩
  · cases h
    exact ⟨.byte, zext 8, by rw [accessBytes_eq, hbu]; rfl, fun _ => rfl⟩
  · cases h
    exact ⟨.half, zext 16, by rw [accessBytes_eq, hhu]; rfl, fun _ => rfl⟩

/-- An instruction that is neither a load nor a store completes. -/
theorem exec_goes_of_not_access (hl : Laws.classOf i ≠ .load) (hst : Laws.classOf i ≠ .store)
    (h : exec i s = .next t) : wentTo t.pc s t := by
  cases i with
  | lb rd rs1 imm => exact absurd rfl hl
  | lh rd rs1 imm => exact absurd rfl hl
  | lw rd rs1 imm => exact absurd rfl hl
  | lbu rd rs1 imm => exact absurd rfl hl
  | lhu rd rs1 imm => exact absurd rfl hl
  | sb rs1 rs2 imm => exact absurd rfl hst
  | sh rs1 rs2 imm => exact absurd rfl hst
  | sw rs1 rs2 imm => exact absurd rfl hst
  | addi rd rs1 imm => cases h; exact wentTo_writeReg_complete ..
  | slli rd rs1 shamt ignored => cases h; exact wentTo_writeReg_complete ..
  | add rd rs1 rs2 => cases h; exact wentTo_writeReg_complete ..
  | sub rd rs1 rs2 f7 => cases h; exact wentTo_writeReg_complete ..
  | sll rd rs1 rs2 f7 => cases h; exact wentTo_writeReg_complete ..
  | jal rd imm => cases h; exact wentTo_writeReg_complete ..
  | beq rs1 rs2 imm => cases h; exact wentTo_complete ..
  | bne rs1 rs2 imm => cases h; exact wentTo_complete ..
  | blt rs1 rs2 imm => cases h; exact wentTo_complete ..
  | bge rs1 rs2 imm => cases h; exact wentTo_complete ..
  | lui rd imm => cases h; exact wentTo_writeReg_complete ..

section Faulted

variable (hs : s.status = .running) (ht : t.status = .faulted)
include hs ht

/-- A load that faults was stopped by one of its checks. -/
theorem loadInto_faulted {n : Width} {ext : Word → Word} {rd : RegIdx} {ea : Word}
    (h : loadInto w n ext rd ea s = .next t) :
    ∃ p, s.accessProblem ea n = some p ∧ t = s.raise p.loadFault (some w) (some ea) := by
  cases hp : s.accessProblem ea n with
  | some p => exact ⟨p, rfl, Host.Outcome.next.inj (h.symm.trans (loadInto_problem s hp))⟩
  | none =>
    obtain rfl := Host.Outcome.next.inj ((loadInto_ok s hp).symm.trans h)
    exact absurd ht ((wentTo_writeReg_complete rd _ s.seqPc).not_faulted hs)

/-- A store that faults was stopped by one of its checks. -/
theorem storeAt_faulted {n : Width} {ea v : Word} (h : storeAt w n ea v s = .next t) :
    ∃ p, s.accessProblem ea n = some p ∧ t = s.raise p.storeFault (some w) (some ea) := by
  cases hp : s.accessProblem ea n with
  | some p => exact ⟨p, rfl, Host.Outcome.next.inj (h.symm.trans (storeAt_problem s hp))⟩
  | none =>
    obtain rfl := Host.Outcome.next.inj ((storeAt_ok s hp).symm.trans h)
    exact absurd ht ((wentTo_complete _ s.seqPc).not_faulted hs)

/-- The instruction in a word faults only as a load or a store, by a check on the access that the word's fields give. -/
theorem exec_faulted_cases (hd : decode w = .ok i) (h : exec i s = .next t) :
    ∃ (n : Width) (p : AccessProblem), n.bytes = accessBytes w ∧
      ((opcode w = OpClass.load.code ∧ s.accessProblem (s.readReg (rs1Field w) + immI w) n = some p ∧
          t = s.raise p.loadFault (some w) (some (s.readReg (rs1Field w) + immI w))) ∨
        (opcode w = OpClass.store.code ∧ s.accessProblem (s.readReg (rs1Field w) + immS w) n = some p ∧
          t = s.raise p.storeFault (some w) (some (s.readReg (rs1Field w) + immS w)))) := by
  have hword : encode i = w := (encodeOfDecodeIsIdentity w i hd).2
  obtain ⟨c, hc, hclass⟩ := class_of_decode hd
  have hop := (opClass?_eq_some_iff_code _ c).mp hc
  by_cases hload : c = .load
  · subst hload
    obtain ⟨n, ext, hn, hexec⟩ := exec_of_decodeLoad hclass
    rw [hexec s, hword] at h
    obtain ⟨p, hp, hraise⟩ := loadInto_faulted hs ht h
    exact ⟨n, p, hn, .inl ⟨hop, hp, hraise⟩⟩
  by_cases hstore : c = .store
  · subst hstore
    obtain ⟨n, hn, hexec⟩ := exec_of_decodeStore hclass
    rw [hexec s, hword] at h
    obtain ⟨p, hp, hraise⟩ := storeAt_faulted hs ht h
    exact ⟨n, p, hn, .inr ⟨hop, hp, hraise⟩⟩
  · have hcls := classOf_of_decodeClass hclass
    exact absurd ht ((exec_goes_of_not_access (hcls ▸ hload) (hcls ▸ hstore) h).not_faulted hs)

end Faulted

/-! ### What a problem of the port says, in the terms of the obligations -/

/-- An access found outside is aligned, and its bytes are not all in the first one's owner. -/
theorem outside_spec {a : Word} {n : Width} (h : s.accessProblem a n = some .outside) :
    a.toNat % n.bytes = 0 ∧ ¬s.insideOwner a.toNat n.bytes := by
  obtain ⟨haligned, hno⟩ := (accessProblem_outside_iff s a n).mp h
  exact ⟨haligned, fun hin => hno (accessOk_of_inside haligned hin)⟩

/-- A fetch that fails was stopped by one of the port's checks. -/
theorem fetch_error {k : FaultKind} (h : s.fetch = .error k) :
    ∃ p, s.accessProblem s.pc .word = some p ∧ k = p.fetchFault := by
  cases hp : s.accessProblem s.pc .word with
  | some p => exact ⟨p, rfl, Except.error.inj (h.symm.trans (fetch_problem s hp))⟩
  | none => cases h.symm.trans (fetch_ok s hp)

/-- Settles O35: a step that faults was stopped in the fetch, in the decoder, or by a check on a load's or a store's
access, and each check names its kind. -/
theorem faultRecordTellsTheFirstFault : Obligations.FaultRecordTellsTheFirstFault := by
  refine ⟨rfl, rfl, rfl, rfl, rfl, rfl, rfl, fun s t f hstep ht hf => ?_⟩
  obtain ⟨hs, ⟨k, hfetch, rfl⟩ | ⟨w, e, hfetch, hdec, rfl⟩ | ⟨w, i, hfetch, hdec, hexec⟩⟩ := step_cases s hstep
  · obtain ⟨p, hp, rfl⟩ := fetch_error hfetch
    cases p with
    | misaligned =>
      cases hf
      exact ⟨(accessProblem_misaligned_iff s s.pc .word).mp hp, rfl, rfl⟩
    | outside =>
      cases hf
      obtain ⟨haligned, hout⟩ := outside_spec hp
      exact ⟨haligned, hout, rfl, rfl⟩
  · have hnot : ¬handled w := fun hh => by
      obtain ⟨i, hi⟩ := (handled_iff_decodes w).mp hh
      cases hdec.symm.trans hi
    cases hf
    exact ⟨w, hfetch, hnot, rfl, rfl⟩
  · have hhandled : handled w := (handled_iff_decodes w).mpr ⟨i, hdec⟩
    obtain ⟨n, p, hn, ⟨hop, hp, rfl⟩ | ⟨hop, hp, rfl⟩⟩ := exec_faulted_cases hs ht hdec hexec
    · cases p with
      | misaligned =>
        cases hf
        have hmis := (accessProblem_misaligned_iff ..).mp hp
        exact ⟨w, _, hfetch, hhandled, hop, rfl, hn ▸ hmis, rfl, rfl⟩
      | outside =>
        cases hf
        obtain ⟨haligned, hout⟩ := outside_spec hp
        exact ⟨w, _, hfetch, hhandled, hop, rfl, hn ▸ haligned, hn ▸ hout, rfl, rfl⟩
    · cases p with
      | misaligned =>
        cases hf
        have hmis := (accessProblem_misaligned_iff ..).mp hp
        exact ⟨w, _, hfetch, hhandled, hop, rfl, hn ▸ hmis, rfl, rfl⟩
      | outside =>
        cases hf
        obtain ⟨haligned, hout⟩ := outside_spec hp
        exact ⟨w, _, hfetch, hhandled, hop, rfl, hn ▸ haligned, hn ▸ hout, rfl, rfl⟩

end Sys2Proof.Machine
end

section
/-! PROOFS. Family 70_reset_and_hazards: the state at creation and after a launch, which images are refused, and what the
fields, the program headers and the header of an ELF file give. -/

namespace Sys2Proof.Machine

/-! ### Reset and the launched registers (spec/70_reset_and_hazards.md R210, R216 to R218) -/

/-- Settles O43: the state at creation is written out with these values. -/
theorem resetStateIsZero : Obligations.ResetStateIsZero :=
  ⟨reset_readReg, rfl, rfl, rfl, rfl⟩

/-- The launch writes `STACK_TOP` to `x2` (R217). -/
theorem setup_readReg_stackPointer (img : LaunchImage) : img.setup.readReg 2 = img.stackTop := by
  simp [LaunchImage.setup, readReg_writeReg_same]

/-- The launch leaves every register but `x2` as it is at creation (R210). -/
theorem setup_readReg_other (img : LaunchImage) {r : RegIdx} (hr : r ≠ 2) : img.setup.readReg r = 0 := by
  rw [LaunchImage.setup, stackPointer_eq, readReg_writeReg_other _ _ _ _ hr]
  exact readReg_replicate_zero _ _ rfl

/-- Settles O44: an accepted launch gives the state set up from the image. -/
theorem launchSetsEntryAndStackPointer : Obligations.LaunchSetsEntryAndStackPointer := by
  intro img s h
  obtain ⟨_, rfl⟩ := (launch_ok_iff img s).mp h
  exact ⟨setup_pc img, setup_readReg_stackPointer img, fun r hr => setup_readReg_other img hr, setup_status img,
    setup_fault img, setup_icount img⟩

/-! ### Overlap (spec/20_memory.md R43) -/

/-- No address lies in both of the launch segments. -/
def LaunchSegment.apart (g h : LaunchSegment) : Prop :=
  ∀ a, ¬((g.vaddr ≤ a ∧ a < g.vaddr + g.memsz) ∧ (h.vaddr ≤ a ∧ a < h.vaddr + h.memsz))

/-- Ranges that overlap share the larger of their bases. -/
theorem range_overlaps_eq_false_iff (g h : LaunchSegment) : g.range.overlaps h.range = false ↔ g.apart h := by
  rw [Segment.overlaps, decide_eq_false_iff_not]
  simp only [LaunchSegment.range, LaunchSegment.apart]
  constructor
  · intro hdisjoint a ha
    omega
  · intro hapart hlt
    exact hapart (max g.vaddr h.vaddr) (by omega)

/-- The overlap check passes just when every two segments are apart. -/
theorem anyOverlap_ranges_eq_false_iff (gs : List LaunchSegment) :
    anyOverlap (gs.map LaunchSegment.range) = false ↔ gs.Pairwise LaunchSegment.apart := by
  induction gs with
  | nil => simp [anyOverlap]
  | cons g rest ih =>
    rw [List.map_cons, anyOverlap, Bool.or_eq_false_iff, ih, List.pairwise_cons, List.any_eq_false, List.forall_mem_map]
    simp only [Bool.not_eq_true, range_overlaps_eq_false_iff]

/-- What the checks of an accepted image say, the overlap check in terms of addresses (R215). -/
theorem problem_none_iff_apart (img : LaunchImage) : img.problem = none ↔
    (∀ g ∈ img.segments, g.filebytes.length ≤ g.memsz) ∧
    (∀ g ∈ img.segments, g.vaddr + g.memsz ≤ Config.addressSpaceSize) ∧
    img.segments.Pairwise LaunchSegment.apart := by
  rw [problem_none_iff, LaunchImage.ranges, anyOverlap_ranges_eq_false_iff]

/-- A launch is refused just when one of the checks finds a problem. -/
theorem launch_error_iff (img : LaunchImage) : (∃ r, launch img = .error r) ↔ img.problem ≠ none := by
  unfold launch
  cases img.problem <;> simp

/-- Settles O46: a refused image is one for which the checks of an accepted one do not all hold. -/
theorem launchRefusesBadSegments : Obligations.LaunchRefusesBadSegments := by
  intro img
  rw [launch_error_iff, Ne, problem_none_iff_apart, not_and_or, not_and_or]
  simp only [not_forall, not_le, exists_prop]
  rfl

/-! ### The memory that an image fills (spec/70_reset_and_hazards.md R213) -/

/-- An address that memory does not list reads as the zero fill. -/
theorem Memory.read_of_not_listed (m : Memory) (a : Nat) (h : ∀ c ∈ m, c.1 ≠ a) : m.read a = Memory.unlisted := by
  induction m with
  | nil => rfl
  | cons c rest ih =>
    obtain ⟨k, v⟩ := c
    have hk : k ≠ a := h (k, v) List.mem_cons_self
    rw [Memory.read, if_neg hk.symm, ih fun c hc => h c (List.mem_cons_of_mem _ hc)]

/-- An image lists no address that lies in none of its segments. -/
theorem imageMemory_read_outside {gs : List LaunchSegment} (hfile : ∀ g ∈ gs, g.filebytes.length ≤ g.memsz) {a : Nat}
    (h : ∀ g ∈ gs, ¬(g.vaddr ≤ a ∧ a < g.vaddr + g.memsz)) : (imageMemory gs).read a = 0 := by
  refine Memory.read_of_not_listed _ _ fun c hc hca => ?_
  obtain ⟨g, hg, hlo, hhi⟩ := mem_imageMemory hc
  have hsize := hfile g hg
  exact h g hg ⟨by omega, by omega⟩

/-- Byte `j` of a segment is its file byte, or zero past the end of its file bytes: no other segment writes there. -/
theorem imageMemory_read {gs : List LaunchSegment} (hfile : ∀ g ∈ gs, g.filebytes.length ≤ g.memsz)
    (hbound : ∀ g ∈ gs, g.vaddr + g.memsz ≤ Config.addressSpaceSize) (hapart : gs.Pairwise LaunchSegment.apart)
    {g : LaunchSegment} (hg : g ∈ gs) {j : Nat} (hj : j < g.memsz) :
    (imageMemory gs).read (g.vaddr + j) = g.filebytes[j]?.getD 0 := by
  induction gs with
  | nil => cases hg
  | cons k rest ih =>
    obtain ⟨hkfile, hrestfile⟩ := List.forall_mem_cons.mp hfile
    obtain ⟨hkbound, hrestbound⟩ := List.forall_mem_cons.mp hbound
    obtain ⟨hkapart, hrestapart⟩ := List.pairwise_cons.mp hapart
    rw [imageMemory]
    rcases List.mem_cons.mp hg with rfl | hrest
    · by_cases hjf : j < g.filebytes.length
      · have hwf := imageMemory_wf hrestfile hrestbound
        rw [Memory.read_writeBytes_inside _ _ _ _ hjf (by omega) hwf, List.getElem?_eq_getElem hjf, Option.getD_some]
      · have hnone : g.filebytes[j]? = none := List.getElem?_eq_none (by omega)
        rw [Memory.read_writeBytes_outside _ _ _ _ (by omega), hnone, Option.getD_none]
        exact imageMemory_read_outside hrestfile fun h hh hin => hkapart h hh _ ⟨⟨by omega, by omega⟩, hin⟩
    · have hnotk : ¬(k.vaddr ≤ g.vaddr + j ∧ g.vaddr + j < k.vaddr + k.memsz) := fun hin =>
        hkapart g hrest _ ⟨hin, by omega, by omega⟩
      rw [Memory.read_writeBytes_outside _ _ _ _ (by omega)]
      exact ih hrestfile hrestbound hrestapart hrest

/-- Settles O45: the mapped addresses are those of the segments, and the memory that the image fills holds their bytes. -/
theorem launchFillsSegments : Obligations.LaunchFillsSegments := by
  intro img s h
  obtain ⟨hchecks, rfl⟩ := (launch_ok_iff img s).mp h
  obtain ⟨hfile, hbound, hapart⟩ := (problem_none_iff_apart img).mp hchecks
  constructor
  · intro g hg j hj
    have howner : (img.setup.owner (g.vaddr + j)).isSome = true := by
      rw [owner_isSome_iff, setup_segs]
      exact ⟨g.range, List.mem_map_of_mem hg, Nat.le_add_right .., Nat.add_lt_add_left hj _⟩
    rw [byteAt_of_owner _ howner, setup_mem, imageMemory_read hfile hbound hapart hg hj]
  · intro a ha
    rw [byteAt_none_iff, owner_none_iff, setup_segs]
    exact List.forall_mem_map.mpr ha

/-! ### Fields of a file (spec/70_reset_and_hazards.md R212) -/

section Elf

variable (file : List Byte)

/-- A file that holds a field holds each of its bytes. -/
theorem fieldLE_le_length {off n v : Nat} (hn : 0 < n) (h : fieldLE file off n = some v) : off + n ≤ file.length := by
  induction n generalizing off v with
  | zero => omega
  | succ n ih =>
    obtain ⟨b, rest, hb, hrest, _⟩ := (fieldLE_succ_iff ..).mp h
    have hoff : off < file.length := (List.getElem?_eq_some_iff.mp hb).1
    rcases Nat.eq_zero_or_pos n with rfl | hpos
    · omega
    · have := ih hpos hrest
      omega

/-- The sum over the bytes of a field, byte `j` times `256 ^ j`. -/
def byteSum (file : List Byte) (off n : Nat) : Nat :=
  ((List.range n).map fun j => (file[off + j]?.getD 0).toNat * 256 ^ j).sum

/-- The sum over one byte more, taken apart at the first byte. -/
theorem byteSum_succ (off n : Nat) :
    byteSum file off (n + 1) = (file[off]?.getD 0).toNat + 256 * byteSum file (off + 1) n := by
  have hshift (j : Nat) : (file[off + (j + 1)]?.getD 0).toNat * 256 ^ (j + 1) =
      256 * ((file[off + 1 + j]?.getD 0).toNat * 256 ^ j) := by
    rw [show off + (j + 1) = off + 1 + j by omega]
    ring
  rw [byteSum, List.range_succ_eq_map, List.map_cons, List.map_map, List.sum_cons, Function.comp_def]
  simp only [Nat.succ_eq_add_one, hshift, List.sum_map_mul_left, byteSum, Nat.add_zero, pow_zero, mul_one]

/-- A field within the file is the sum over its bytes. -/
theorem fieldLE_eq_byteSum {off n : Nat} (h : off + n ≤ file.length) :
    fieldLE file off n = some (byteSum file off n) := by
  induction n generalizing off with
  | zero => rfl
  | succ n ih =>
    have hb : file[off]? = some file[off] := List.getElem?_eq_getElem (by omega)
    refine (fieldLE_succ_iff ..).mpr ⟨_, _, hb, ih (by omega), ?_⟩
    rw [byteSum_succ, hb, Option.getD_some]

/-- Settles O55: a field that is there lies within the file, where it is the sum over its bytes. -/
theorem elfFieldsAreLittleEndian : Obligations.ElfFieldsAreLittleEndian := by
  intro file off n v hn
  constructor
  · intro h
    have hle := fieldLE_le_length file hn h
    exact ⟨hle, Option.some.inj (h.symm.trans (fieldLE_eq_byteSum file hle))⟩
  · rintro ⟨hle, rfl⟩
    exact fieldLE_eq_byteSum file hle

/-! ### Program headers (spec/70_reset_and_hazards.md R212 to R215) -/

/-- A header of a type other than `PT_LOAD` gives no segment (R214). -/
theorem readProgramHeader_of_not_load {h pType : Nat} (htype : fieldLE file h 4 = some pType) (hne : pType ≠ ptLoad) :
    readProgramHeader file h = .ok none := by
  simp [readProgramHeader, (needField_ok_iff ..).mpr htype, bind, Except.bind, hne]

/-- A `PT_LOAD` header whose fields are in the file is checked, and then gives its segment (R213, R215). -/
theorem readProgramHeader_of_load {h pOffset pVaddr pFilesz pMemsz : Nat} (htype : fieldLE file h 4 = some ptLoad)
    (hoff : fieldLE file (h + 4) 4 = some pOffset) (hvaddr : fieldLE file (h + 8) 4 = some pVaddr)
    (hfilesz : fieldLE file (h + 16) 4 = some pFilesz) (hmemsz : fieldLE file (h + 20) 4 = some pMemsz) :
    readProgramHeader file h =
      if file.length < pOffset + pFilesz then .error .fileRangeBeyondEnd
      else if pMemsz < pFilesz then .error .fileLargerThanSegment
      else .ok (some { vaddr := pVaddr, memsz := pMemsz, filebytes := (file.drop pOffset).take pFilesz }) := by
  simp only [← needField_ok_iff] at htype hoff hvaddr hfilesz hmemsz
  simp [readProgramHeader, htype, hoff, hvaddr, hfilesz, hmemsz, bind, Except.bind]

/-- Settles O48: the header's type selects whether it is checked, and the checks come in their order. -/
theorem programHeaderGivesSegment : Obligations.ProgramHeaderGivesSegment := by
  intro file h pType pOffset pVaddr pFilesz pMemsz htype hoff hvaddr hfilesz hmemsz
  refine ⟨readProgramHeader_of_not_load file htype, ?_, ?_, ?_⟩
  · rintro rfl hbeyond
    rw [readProgramHeader_of_load file htype hoff hvaddr hfilesz hmemsz, if_pos hbeyond]
  · rintro rfl hin hlarge
    rw [readProgramHeader_of_load file htype hoff hvaddr hfilesz hmemsz, if_neg (by omega), if_pos hlarge]
  · rintro rfl hin hfits
    refine ⟨⟨pVaddr, pMemsz, (file.drop pOffset).take pFilesz⟩, ?_, rfl, rfl, ?_, ?_⟩
    · rw [readProgramHeader_of_load file htype hoff hvaddr hfilesz hmemsz, if_neg (by omega), if_neg (by omega)]
    · rw [List.length_take, List.length_drop]
      omega
    · intro j hj
      rw [List.getElem?_take_of_lt hj, List.getElem?_drop]

/-- Settles O56, by induction on the number of headers: the first one found stands before those of the rest. -/
theorem programHeadersAreReadInTableOrder : Obligations.ProgramHeadersAreReadInTableOrder := by
  intro file size n
  induction n with
  | zero =>
    intro h gs
    simp [eq_comm]
  | succ n ih =>
    intro h gs
    have hnext (i : Nat) : h + (i + 1) * size = h + size + i * size := by ring
    rw [readProgramHeaders_succ_iff]
    constructor
    · rintro ⟨first, rest, hfirst, hrest, rfl⟩
      obtain ⟨found, hlen, hfound, rfl⟩ := (ih _ _).mp hrest
      refine ⟨first :: found, by rw [List.length_cons, hlen], ?_, by cases first <;> rfl⟩
      intro i o hio
      cases i with
      | zero =>
        obtain rfl := Option.some.inj hio
        simpa using hfirst
      | succ i => exact hnext i ▸ hfound i o hio
    · rintro ⟨found, hlen, hfound, rfl⟩
      cases found with
      | nil => cases hlen
      | cons first found =>
        have hfirst : readProgramHeader file h = .ok first := by simpa using hfound 0 first rfl
        have hrest := (ih (h + size) _).mpr
          ⟨found, Nat.succ.inj hlen, fun i o hio => hnext i ▸ hfound (i + 1) o hio, rfl⟩
        exact ⟨first, _, hfirst, hrest, by cases first <;> rfl⟩

/-- With nothing mapped no access is inside a segment. -/
theorem not_insideOwner_of_segs_nil {s : State} (h : s.segs = []) (a n : Nat) : ¬s.insideOwner a n := by
  rintro ⟨k, howner, _⟩
  obtain ⟨hmem, _⟩ := owner_covers s howner
  exact absurd (h ▸ hmem) List.not_mem_nil

/-- Settles O49: a table of such headers finds none at each place, and with nothing mapped the first fetch fails. -/
theorem noLoadableHeaderFaultsAtFirstFetch : Obligations.NoLoadableHeaderFaultsAtFirstFetch := by
  constructor
  · intro file size n h htypes
    refine (programHeadersAreReadInTableOrder file size n h []).mpr
      ⟨List.replicate n none, List.length_replicate, fun i o hio => ?_, by simp⟩
    obtain rfl : o = none := List.eq_of_mem_replicate (List.mem_of_getElem? hio)
    have hi : i < n := by simpa using (List.getElem?_eq_some_iff.mp hio).1
    obtain ⟨v, hv, hne⟩ := htypes i hi
    exact readProgramHeader_of_not_load file hv hne
  · intro entry stackTop
    have hlaunch := (launch_ok_iff ⟨[], entry, stackTop⟩ _).mpr ⟨rfl, rfl⟩
    obtain ⟨hmis, hout⟩ := fetchFaultsAt_always (LaunchImage.setup ⟨[], entry, stackTop⟩) (setup_status _)
    rw [setup_pc] at hmis hout
    exact ⟨_, hlaunch, fun ha => hout ha (not_insideOwner_of_segs_nil (setup_segs _) _ _), hmis⟩

/-! ### The header of a file (spec/70_reset_and_hazards.md R212) -/

/-- A computation in sequence succeeds just when each of its parts does. -/
theorem bind_ok_iff {ε α β : Type} (x : Except ε α) (f : α → Except ε β) (b : β) :
    (x >>= f) = .ok b ↔ ∃ a, x = .ok a ∧ f a = .ok b := by
  cases x <;> simp [bind, Except.bind]

/-- A check that stops the computation is passed just when its condition does not hold. -/
theorem ite_error_ok_iff {ε α : Type} {p : Prop} [Decidable p] (e : ε) (x : Except ε α) (b : α) :
    (if p then .error e else x) = .ok b ↔ ¬p ∧ x = .ok b := by
  by_cases h : p <;> simp [h]

/-- A file gives an image just when each check passes and each field is there, in the order of the loader. -/
theorem loadElf_ok_iff (stackTop : Word) (img : LaunchImage) : loadElf file stackTop = .ok img ↔
    file.take 4 = elfMagic ∧ fieldLE file 18 2 = some elfMachineRiscv ∧ fieldLE file 4 1 = some elfClass32 ∧
    ∃ phnum, fieldLE file 44 2 = some phnum ∧ phnum ≠ 0 ∧ ∃ entry, fieldLE file 24 4 = some entry ∧
      ∃ phoff, fieldLE file 28 4 = some phoff ∧ ∃ phentsize, fieldLE file 42 2 = some phentsize ∧
        ∃ segments, readProgramHeaders file phentsize phnum phoff = .ok segments ∧
          { segments := segments, entry := BitVec.ofNat 32 entry, stackTop := stackTop } = img := by
  simp only [loadElf, bind_ok_iff, ite_error_ok_iff, needField_ok_iff, Except.ok.injEq, ne_eq, not_not]
  constructor
  · rintro ⟨hmagic, _, hmachine, _, hclass, rfl, rfl, himage⟩
    exact ⟨hmagic, hmachine, hclass, himage⟩
  · rintro ⟨hmagic, hmachine, hclass, himage⟩
    exact ⟨hmagic, _, hmachine, _, hclass, rfl, rfl, himage⟩

/-- The class byte is 1 (R212). -/
theorem class_field_iff : fieldLE file 4 1 = some elfClass32 ↔ file[4]? = some 1 := by
  simp only [fieldLE_succ_iff, fieldLE_zero, elfClass32]
  constructor
  · rintro ⟨b, _, hb, hz, hsum⟩
    cases hz
    obtain rfl : b = 1 := BitVec.eq_of_toNat_eq hsum.symm
    exact hb
  · intro h
    exact ⟨1, 0, h, rfl, rfl⟩

/-- The machine bytes are F3 and 00, the lower one first (R212). -/
theorem machine_field_iff :
    fieldLE file 18 2 = some elfMachineRiscv ↔ file[18]? = some 0xF3 ∧ file[19]? = some 0 := by
  simp only [fieldLE_succ_iff, fieldLE_zero, elfMachineRiscv]
  constructor
  · rintro ⟨b0, _, h0, ⟨b1, _, h1, hz, rfl⟩, hsum⟩
    cases hz
    have hlow := b0.isLt
    obtain rfl : b0 = 0xF3 := BitVec.eq_of_toNat_eq (show b0.toNat = 0xF3 by omega)
    obtain rfl : b1 = 0 := BitVec.eq_of_toNat_eq (show b1.toNat = 0 by omega)
    exact ⟨h0, h1⟩
  · rintro ⟨h0, h1⟩
    exact ⟨0xF3, 0, h0, ⟨0, 0, h1, rfl, rfl⟩, rfl⟩

/-- A four-byte field, byte by byte. -/
theorem fieldLE_four_iff (off v : Nat) : fieldLE file off 4 = some v ↔
    ∃ b0 b1 b2 b3, file[off]? = some b0 ∧ file[off + 1]? = some b1 ∧ file[off + 2]? = some b2 ∧
      file[off + 3]? = some b3 ∧ v = b0.toNat + 256 * b1.toNat + 256 ^ 2 * b2.toNat + 256 ^ 3 * b3.toNat := by
  simp only [fieldLE_succ_iff, fieldLE_zero]
  constructor
  · rintro ⟨b0, _, h0, ⟨b1, _, h1, ⟨b2, _, h2, ⟨b3, _, h3, hz, rfl⟩, rfl⟩, rfl⟩, rfl⟩
    cases hz
    exact ⟨b0, b1, b2, b3, h0, h1, h2, h3, by ring⟩
  · rintro ⟨b0, b1, b2, b3, h0, h1, h2, h3, rfl⟩
    exact ⟨b0, _, h0, ⟨b1, _, h1, ⟨b2, _, h2, ⟨b3, _, h3, rfl, rfl⟩, rfl⟩, rfl⟩, by ring⟩

/-- Settles O47: the loader's checks and fields, read byte by byte; a file's launch is that of the image it gives. -/
theorem elfHeaderIsChecked : Obligations.ElfHeaderIsChecked := by
  constructor
  · intro file stackTop img
    rw [loadElf_ok_iff, machine_field_iff, class_field_iff]
    constructor
    · rintro ⟨hmagic, ⟨hm0, hm1⟩, hclass, phnum, hphnum, hne, entry, hentry, phoff, hphoff, phentsize, hphentsize,
        segments, hsegments, rfl⟩
      obtain ⟨b0, b1, b2, b3, h0, h1, h2, h3, rfl⟩ := (fieldLE_four_iff ..).mp hentry
      refine ⟨hmagic, hclass, hm0, hm1, rfl, ⟨b0, b1, b2, b3, h0, h1, h2, h3, ?_⟩, phoff, phentsize, phnum, hphoff,
        hphentsize, hphnum, hne, hsegments⟩
      rw [BitVec.toNat_ofNat, Nat.mod_eq_of_lt (by omega)]
    · rintro ⟨hmagic, hclass, hm0, hm1, rfl, ⟨b0, b1, b2, b3, h0, h1, h2, h3, hentry⟩, phoff, phentsize, phnum, hphoff,
        hphentsize, hphnum, hne, hsegments⟩
      have hfield : fieldLE file 24 4 = some img.entry.toNat :=
        (fieldLE_four_iff ..).mpr ⟨b0, b1, b2, b3, h0, h1, h2, h3, hentry⟩
      refine ⟨hmagic, ⟨hm0, hm1⟩, hclass, phnum, hphnum, hne, _, hfield, phoff, hphoff, phentsize, hphentsize,
        img.segments, hsegments, ?_⟩
      rw [BitVec.ofNat_toNat, BitVec.setWidth_eq]
  · intro file stackTop s
    unfold launchElf
    cases loadElf file stackTop <;> simp

end Elf

end Sys2Proof.Machine
end
